-- ==== Sys2Proof/Word.lean ====
section
/-! DEFINITION. Words, bytes and vector register numbers (spec/00_scope.md R6, R7; spec/30_encoding.md R51). -/

namespace Sys2Proof

/-- A 32-bit unit of storage (R6 `WORD_BITS`, R12). -/
abbrev Word := BitVec 32

/-- An 8-bit byte (R6 `BYTE_BITS`). -/
abbrev Byte := BitVec 8

/-- A vector register number, 0 to 15 (R51, `NVR` of R6). -/
abbrev VReg := Fin 16

end Sys2Proof
end

