-- ==== Sys2Proof/Syntax.lean ====
section
/-! DEFINITION. The 13 commands of spec/opcode_table.json, one constructor a row, with the operand
fields that spec/30_encoding.md R52 marks `d`, `a` and `b`, in the order VD, VA, VB. -/

namespace Sys2Proof

/-- The commands of R52. A register field is a `VReg`, so that no term names a register outside
0 to 15 (R51). -/
inductive Instr where
  /-- R91: no operation. -/
  | nop
  /-- R65: `VR[d]` becomes a uniform vector of `ARG0` bits, each bit `ARG1`. -/
  | vfill (d : VReg)
  /-- R66: `RESULT` becomes the size of `VR[a]`. -/
  | vsize (a : VReg)
  /-- R67: `VR[d]` becomes the complement of `VR[a]`. -/
  | vnot (d a : VReg)
  /-- R68: `VR[d]` becomes the conjunction of `VR[a]` and `VR[b]`. -/
  | vand (d a b : VReg)
  /-- R69: `VR[d]` becomes the disjunction of `VR[a]` and `VR[b]`. -/
  | vor (d a b : VReg)
  /-- R70: `RESULT` becomes 1 if `VR[a]` equals `VR[b]`, else 0. -/
  | veq (a b : VReg)
  /-- R79: `VR[d]` becomes the zero-extended window of `VR[a]` at `ARG0`, of `ARG1` bits. -/
  | vxz (d a : VReg)
  /-- R80: `VR[d]` becomes the wrapped window of `VR[a]` at `ARG0`, of `ARG1` bits. -/
  | vxw (d a : VReg)
  /-- R84: a new builder of `ARG0` bits. -/
  | bnew
  /-- R85: byte `ARG0` of the builder becomes `ARG1`. -/
  | bset
  /-- R86: `VR[d]` becomes the builder's packed bytes, and the builder is consumed. -/
  | bbuild (d : VReg)
  /-- R90: `RESULT` becomes word `ARG0` of `VR[a]`. -/
  | vrdw (a : VReg)
deriving DecidableEq, Repr

end Sys2Proof
end

