-- ==== Sys2Proof/WellFormed.lean ====
section
/-! DEFINITION. The five fields of a command word and which of their values are legal
(spec/30_encoding.md R50, R52 to R55). The check is written from the VD, VA and VB columns of R52;
Decode.lean is written from its match and mask table. -/

namespace Sys2Proof

/-- The fields of the one command format (R50), most significant first. -/
structure Cmd where
  rsv : BitVec 12
  vb  : BitVec 4
  va  : BitVec 4
  vd  : BitVec 4
  op  : BitVec 8
deriving DecidableEq, Repr

/-- Which of the fields VD, VA, VB a command reads as a register number (R52). -/
structure FieldUse where
  vd : Bool
  va : Bool
  vb : Bool
deriving DecidableEq, Repr

/-- The VD, VA and VB columns of R52 by opcode; `none` for a reserved opcode (0x0D to 0xFF). -/
def Cmd.fieldUse (op : BitVec 8) : Option FieldUse :=
  match op.toNat with
  | 0x00 => some ⟨false, false, false⟩
  | 0x01 => some ⟨true, false, false⟩
  | 0x02 => some ⟨false, true, false⟩
  | 0x03 => some ⟨true, true, false⟩
  | 0x04 => some ⟨true, true, true⟩
  | 0x05 => some ⟨true, true, true⟩
  | 0x06 => some ⟨false, true, true⟩
  | 0x07 => some ⟨true, true, false⟩
  | 0x08 => some ⟨true, true, false⟩
  | 0x09 => some ⟨false, false, false⟩
  | 0x0A => some ⟨false, false, false⟩
  | 0x0B => some ⟨true, false, false⟩
  | 0x0C => some ⟨false, true, false⟩
  | _    => none

/-- Check of R54: the reserved bits are zero. -/
def Cmd.reservedZero (c : Cmd) : Bool := c.rsv == 0

/-- Check of R55: the opcode is defined. -/
def Cmd.opDefined (c : Cmd) : Bool := (Cmd.fieldUse c.op).isSome

/-- Check of R53: every field the opcode leaves unused is zero. -/
def Cmd.unusedZero (c : Cmd) : Bool :=
  match Cmd.fieldUse c.op with
  | none   => true
  | some u => (u.vd || c.vd == 0) && (u.va || c.va == 0) && (u.vb || c.vb == 0)

/-- A legal command word, by its fields (R53 to R55). -/
def Cmd.wf (c : Cmd) : Bool := c.reservedZero && c.opDefined && c.unusedZero

/-- A register number as its 4-bit field (R51). -/
def VReg.field (r : VReg) : BitVec 4 := BitVec.ofFin r

/-- The fields each command assembles to (R50, R52). -/
def Instr.cmd : Instr → Cmd
  | .nop        => ⟨0, 0, 0, 0, 0x00⟩
  | .vfill d    => ⟨0, 0, 0, VReg.field d, 0x01⟩
  | .vsize a    => ⟨0, 0, VReg.field a, 0, 0x02⟩
  | .vnot d a   => ⟨0, 0, VReg.field a, VReg.field d, 0x03⟩
  | .vand d a b => ⟨0, VReg.field b, VReg.field a, VReg.field d, 0x04⟩
  | .vor d a b  => ⟨0, VReg.field b, VReg.field a, VReg.field d, 0x05⟩
  | .veq a b    => ⟨0, VReg.field b, VReg.field a, 0, 0x06⟩
  | .vxz d a    => ⟨0, 0, VReg.field a, VReg.field d, 0x07⟩
  | .vxw d a    => ⟨0, 0, VReg.field a, VReg.field d, 0x08⟩
  | .bnew       => ⟨0, 0, 0, 0, 0x09⟩
  | .bset       => ⟨0, 0, 0, 0, 0x0A⟩
  | .bbuild d   => ⟨0, 0, 0, VReg.field d, 0x0B⟩
  | .vrdw a     => ⟨0, 0, VReg.field a, 0, 0x0C⟩

/-- An instruction is well formed when its fields are a legal command. By its types every `Instr` is
(`Sys2Proof.Laws.Legal`); a `Cmd` need not be. -/
def Instr.wf (i : Instr) : Bool := i.cmd.wf

end Sys2Proof
end

