-- ==== Sys2Proof/Decode.lean ====
section
/-! DEFINITION. The decoder, total on every 32-bit word and on every byte list (spec/30_encoding.md
R52 match and mask, R62), and after it the encoder (R50, R52). -/

namespace Sys2Proof

/-- Why a word or a byte list is no command. All but `wrongLength` run as `IllegalCommand` (R92). -/
inductive DecodeError where
  /-- R54: one of bits `[31:20]` is set. -/
  | reservedBits
  /-- R55: `OP` is 0x0D to 0xFF. -/
  | reservedOpcode
  /-- R53: a field that the command's row marks `0` is not zero. -/
  | unusedField
  /-- A command is exactly one 32-bit word (R50), so four bytes. -/
  | wrongLength
deriving DecidableEq, Repr

/-- A row of R52's match and mask table, with the command it stands for given its VD, VA and VB. -/
structure OpRow where
  pat   : Word
  mask  : Word
  build : VReg → VReg → VReg → Instr

/-- The match and mask table of R52, row by row. -/
def opTable : List OpRow := [
  ⟨0x00000000, 0xFFFFFFFF, fun _ _ _ => .nop⟩,
  ⟨0x00000001, 0xFFFFF0FF, fun d _ _ => .vfill d⟩,
  ⟨0x00000002, 0xFFFF0FFF, fun _ a _ => .vsize a⟩,
  ⟨0x00000003, 0xFFFF00FF, fun d a _ => .vnot d a⟩,
  ⟨0x00000004, 0xFFF000FF, fun d a b => .vand d a b⟩,
  ⟨0x00000005, 0xFFF000FF, fun d a b => .vor d a b⟩,
  ⟨0x00000006, 0xFFF00FFF, fun _ a b => .veq a b⟩,
  ⟨0x00000007, 0xFFFF00FF, fun d a _ => .vxz d a⟩,
  ⟨0x00000008, 0xFFFF00FF, fun d a _ => .vxw d a⟩,
  ⟨0x00000009, 0xFFFFFFFF, fun _ _ _ => .bnew⟩,
  ⟨0x0000000A, 0xFFFFFFFF, fun _ _ _ => .bset⟩,
  ⟨0x0000000B, 0xFFFFF0FF, fun d _ _ => .bbuild d⟩,
  ⟨0x0000000C, 0xFFFF0FFF, fun _ a _ => .vrdw a⟩]

/-- The five fields of a command word (R50). -/
def Cmd.ofWord (x : Word) : Cmd where
  rsv := x.extractLsb' 20 12
  vb  := x.extractLsb' 16 4
  va  := x.extractLsb' 12 4
  vd  := x.extractLsb' 8 4
  op  := x.extractLsb' 0 8

/-- The word of five fields (R50: `rrrrrrrrrrrr bbbb aaaa dddd oooooooo`, most significant first). -/
def Cmd.toWord (c : Cmd) : Word := c.rsv ++ c.vb ++ c.va ++ c.vd ++ c.op

/-- The row of R52 that a word matches: `x & mask = match`. -/
def OpRow.matches (r : OpRow) (x : Word) : Bool := x &&& r.mask == r.pat

/-- R62: a word with a reserved bit set is illegal; otherwise the row that matches gives the command;
otherwise the word is illegal, by name of what is wrong with it. -/
def decode (x : Word) : Except DecodeError Instr :=
  let c := Cmd.ofWord x
  if c.rsv ≠ 0 then .error .reservedBits
  else match opTable.find? (·.matches x) with
    | some r => .ok (r.build c.vd.toFin c.va.toFin c.vb.toFin)
    | none   => .error (if c.op.toNat ≤ 0x0C then .unusedField else .reservedOpcode)

/-- R42: byte lane `j` of a register word carries bits `[8j+7:8j]`. -/
def byteLane (w : Word) (j : Nat) : Byte := w.extractLsb' (8 * j) 8

/-- R42: the word whose byte lanes, from lane 0, are the given bytes. -/
def wordOfLanes (b0 b1 b2 b3 : Byte) : Word := b3 ++ b2 ++ b1 ++ b0

/-- Decoding the byte lanes of one command word, lane 0 first (R42, R50); total on any byte list. -/
def decodeBytes : List Byte → Except DecodeError Instr
  | [b0, b1, b2, b3] => decode (wordOfLanes b0 b1 b2 b3)
  | _                => .error .wrongLength

/-- The word of an instruction: its fields in R50's places. -/
def encode (i : Instr) : Word := i.cmd.toWord

/-- The low `nbits` bits of `w` as one command word, every bit above them 0. -/
def tableWord (nbits w : Nat) : Word := BitVec.ofNat 32 (w % 2 ^ nbits)

/-- What the decoder reads from an instruction whose bits are `w`, numbered as the opcode table
numbers them: laid out in byte lanes (R42) and given to `decodeBytes`. -/
def decodeTableWord (nbits w : Nat) : Option Instr :=
  let x := tableWord nbits w
  match decodeBytes [byteLane x 0, byteLane x 1, byteLane x 2, byteLane x 3] with
  | .ok i    => some i
  | .error _ => none

end Sys2Proof
end

