-- ==== Sys2Proof/Config.lean ====
section
/-! DEFINITION. The parameters the spec leaves OPEN (spec/00_scope.md R6; spec/70_reset_and_hazards.md R121). -/

namespace Sys2Proof

/-- The `OPEN` parameters that rules of the spec read (R6). They are fixed for one machine: no step
changes them. Every statement about all states holds for every value of them. -/
structure Config where
  /-- `MAX_WORDS`: the capacity of a vector register and of the builder, in words. -/
  maxWords : Nat
  /-- `BASE`: the platform address of the register window. -/
  base     : Nat
deriving DecidableEq, Repr

/-- The ranges R6 gives: `10 <= MAX_WORDS <= 2^26 - 1`, and `BASE` is 32-byte aligned. -/
def Config.wf (c : Config) : Bool :=
  decide (10 ≤ c.maxWords) && decide (c.maxWords ≤ 2 ^ 26 - 1) && decide (c.base % 32 = 0)

/-- `MAX_BITS = 32 * MAX_WORDS` (R6). -/
def Config.maxBits (c : Config) : Nat := 32 * c.maxWords

/-- The parameters of `State.reset`. DESIGN CHOICE (log entries 2 and 3; unsafe for a claim about
`State.reset` alone): `MAX_WORDS = 16`, the legal value the spec's own examples use, and `BASE = 0`. -/
def Config.example16 : Config := ⟨16, 0⟩

/-- `CMD_LATENCY` (R121): the bus wait states of a `CMD` write, which may depend on the command word
and on its operand sizes. A free value: no rule, and nothing in this model, reads it (log entry 9). -/
opaque Config.cmdLatency : Word → List Nat → Nat

end Sys2Proof
end

