-- ==== Sys2Proof/Machine/State.lean ====
section
/-! DEFINITION. Every piece of state the block has (spec/10_state.md), the host's pending events, and
the reset state (spec/70_reset_and_hazards.md R111). -/

namespace Sys2Proof.Machine

/-- The error kinds of R94, in the order of their codes 1 to 10. -/
inductive ErrKind where
  | invalidSize
  | invalidWindowSize
  | sizeMismatch
  | indexOutOfRange
  | alreadyBuilt
  | illegalCommand
  | unwrittenRegister
  | noBuilder
  | valueOutOfRange
  | capacityExceeded
deriving DecidableEq, Repr

/-- `B.state` (R29): `Idle`, `Open`, `Consumed`. -/
inductive BState where
  | idle
  | opened
  | consumed
deriving DecidableEq, Repr

/-- A vector value (R13): its words, `words[0]` holding bits `[0,31]`. Its size in bits is 32 times
their number (DEDUCED, log entry 11: the pair `(size, w)` of R13 has exactly `size / 32` words). -/
structure Vec where
  words : List Word
deriving DecidableEq, Repr

/-- The builder staging unit `B` (R29). -/
structure Builder where
  state : BState
  size  : Nat
  bytes : List Byte
deriving DecidableEq, Repr

/-- The eight registers of the window (R34). -/
inductive Reg where
  | cmd
  | arg0
  | arg1
  | result
  | status
  | maxwords
  | bldsize
  | vrvalid
deriving DecidableEq, Repr

/-- What the outside world does to the block, one event at a time (R46, R112): a bus access of
`width` bytes at a platform address, or the platform's reset. -/
inductive HostEvent where
  /-- `MemRead(addr, width)`. -/
  | read (addr width : Nat)
  /-- `MemWrite(addr, width, data)`. -/
  | write (addr width : Nat) (data : Word)
  /-- The platform asserts the block's reset input (R111). -/
  | reset
deriving DecidableEq, Repr

/-- The machine stops with a fault: never. The block has no trap and no stuck state; an error is a
next state with its code in `STATUS` (R99, R102), so this type has no constructor. -/
inductive Fault
deriving DecidableEq, Repr

/-- Why a step is refused. No instruction's meaning answers with a refusal. -/
inductive Refusal where
  /-- Raised by `exec` for an instruction that has no meaning yet. Safe: nothing is claimed of it. -/
  | notModelled (mnemonic : String)
  /-- Raised by a bus access that is not 32 bits wide (R35): a bus error, refused as R37 and I7 say.
  Safe: the access is not performed, and the run ends. -/
  | busErrorWidth
  /-- Raised by a 32-bit bus access at an offset that is not 4-byte aligned (R36): a bus error,
  refused as R37 and I7 say. Safe. -/
  | busErrorMisaligned
  /-- Raised by a bus write to a read-only register (R38): a bus error, refused as R37 and I7 say.
  Safe. -/
  | busErrorReadOnly
  /-- Raised by a bus access outside the 32-byte window: "The platform decides what lies outside the
  window" (R34). Safe (log entry 8). -/
  | outsideWindow
deriving DecidableEq, Repr

/-- The state of the block. `STATUS`, `MAXWORDS`, `BLDSIZE` and `VRVALID` are views of these fields
(Flags.lean, Ops.lean; log entry 10). -/
structure State where
  /-- The `OPEN` parameters; no step changes them (R32, log entry 1). -/
  config   : Config
  /-- `VR[0]` to `VR[15]` (R18); `none` is `Invalid`. -/
  vr       : Vector (Option Vec) 16
  /-- `ARG0` (R20). -/
  arg0     : Word
  /-- `ARG1` (R21). -/
  arg1     : Word
  /-- `RESULT` (R23). -/
  result   : Word
  /-- `CMD` (R24): the last word written. -/
  cmd      : Word
  /-- `STATUS.ERR` (R22); `none` is code 0, success (log entry 12). -/
  err      : Option ErrKind
  /-- `STATUS.ANYERR` (R22). -/
  anyErr   : Bool
  /-- The builder staging unit `B` (R29). -/
  builder  : Builder
  /-- The MODEL's own field: the host's events not yet performed, in issue order (R46, log entry 5). -/
  host     : List HostEvent
  /-- The MODEL's own field: the word the latest read returned to the host (R34, log entry 6). -/
  readData : Option Word
deriving DecidableEq, Repr

/-- The state after reset, for given parameters (R111). `B.bytes` is the empty sequence (DESIGN
CHOICE, log entry 4), no host event is pending and no read has been made (log entries 5, 6). -/
def State.resetWith (c : Config) : State where
  config   := c
  vr       := Vector.replicate 16 none
  arg0     := 0
  arg1     := 0
  result   := 0
  cmd      := 0
  err      := none
  anyErr   := false
  builder  := ⟨.idle, 0, []⟩
  host     := []
  readData := none

/-- The machine right after reset (R111), with the example parameters of `Config.example16` (DESIGN
CHOICE, log entries 2 and 3). -/
def State.reset : State := State.resetWith Config.example16

end Sys2Proof.Machine
end

