-- ==== Sys2Proof/Machine/Flags.lean ====
section
/-! DEFINITION. The numbers of STATUS (spec/10_state.md R22, spec/60_exceptions.md R94). -/

namespace Sys2Proof.Machine

/-- The error codes of R94. -/
def ErrKind.code : ErrKind → BitVec 4
  | .invalidSize       => 1
  | .invalidWindowSize => 2
  | .sizeMismatch      => 3
  | .indexOutOfRange   => 4
  | .alreadyBuilt      => 5
  | .illegalCommand    => 6
  | .unwrittenRegister => 7
  | .noBuilder         => 8
  | .valueOutOfRange   => 9
  | .capacityExceeded  => 10

/-- `STATUS.ERR`: 0 for success, otherwise the code of the kind (R22, R94). -/
def errCode : Option ErrKind → BitVec 4
  | none   => 0
  | some e => e.code

/-- `STATUS.BSTATE`: 0 `Idle`, 1 `Open`, 2 `Consumed`; 3 never occurs (R22). -/
def BState.code : BState → BitVec 2
  | .idle     => 0
  | .opened   => 1
  | .consumed => 2

/-- `STATUS` (R22): `ERR` in bits 3:0, `ANYERR` in bit 4, `BSTATE` in bits 9:8, which always mirrors
`B.state`; bits 7:5 and 31:10 read as 0. -/
def State.statusWord (s : State) : Word :=
  0#22 ++ s.builder.state.code ++ 0#3 ++ BitVec.ofBool s.anyErr ++ errCode s.err

end Sys2Proof.Machine
end

