-- ==== Sys2Proof/Machine/Vectors.lean ====
section
/-! DEFINITION. The pure functions on vector values: bits (spec/00_scope.md R8, R10), fill
(spec/40_construct_boolean.md R63), the boolean unit (R64), extraction (spec/41_extract.md R75, R76),
packing (spec/42_builder.md R87) and the canonical string form (spec/10_state.md R16). -/

namespace Sys2Proof.Machine

/-- R8: the greatest integer `q` with `q * m <= a`. -/
def floorDiv (a m : Int) : Int := Int.fdiv a m

/-- R8: `a - m * floorDiv(a, m)`, in `[0, m)` for `m > 0`. -/
def floorMod (a m : Int) : Int := a - m * floorDiv a m

/-- R10 `v.nw`: the number of words. -/
def Vec.nw (v : Vec) : Nat := v.words.length

/-- R13 `v.size`, in bits. -/
def Vec.size (v : Vec) : Nat := 32 * v.nw

/-- `v.w[k]` for `k < v.nw` (R10). Zero above, where no rule reads it (log entry 13). -/
def Vec.word (v : Vec) (k : Nat) : Word := v.words.getD k 0

/-- R10: `(v.w[floorDiv(s, 32)] >> floorMod(s, 32)) & 1`, for `0 <= s < v.size`. -/
def Vec.bit (v : Vec) (s : Nat) : Bool := (v.word (s / 32)).getLsbD (s % 32)

/-- The word whose bit `t` is `f t`, for `t < 32`. -/
def wordOfBits (f : Nat → Bool) : Word := BitVec.ofFnLE fun t : Fin 32 => f t

/-- R10 `mkvec(n, f)`: the vector of size `n` whose bit `i` is `f i`. -/
def mkvec (n : Nat) (f : Nat → Bool) : Vec :=
  ⟨(List.range (n / 32)).map fun k => wordOfBits fun t => f (32 * k + t)⟩

/-- R63 `fill(n, b)`: every word all ones if `b`, else all zeros. -/
def fill (n : Nat) (b : Bool) : Vec :=
  ⟨List.replicate (n / 32) (if b then 0xFFFFFFFF else 0x00000000)⟩

/-- R64 `vnot`: the complement of every word. -/
def vnot (a : Vec) : Vec := ⟨a.words.map (~~~ ·)⟩

/-- R64 `vand`: the conjunction word by word, of vectors of one size. -/
def vand (a b : Vec) : Vec := ⟨List.zipWith (· &&& ·) a.words b.words⟩

/-- R64 `vor`: the disjunction word by word, of vectors of one size. -/
def vor (a b : Vec) : Vec := ⟨List.zipWith (· ||| ·) a.words b.words⟩

/-- R75: `bit(V, start + i)` where `0 <= start + i < N`, else 0, with exact integer indexes (R74). -/
def extractZ (v : Vec) (start : Int) (size : Nat) : Vec :=
  mkvec size fun i =>
    let s := start + (i : Int)
    if 0 ≤ s ∧ s < v.size then v.bit s.toNat else false

/-- R76: `bit(V, floorMod(start + i, N))`, with exact integer indexes (R74). -/
def extractW (v : Vec) (start : Int) (size : Nat) : Vec :=
  mkvec size fun i => v.bit (floorMod (start + (i : Int)) v.size).toNat

/-- Byte `k` of a builder's buffer as a word. Zero beyond the buffer, where no rule reads it (log
entry 13). -/
def byteAsWord (bytes : List Byte) (k : Nat) : Word := (bytes.getD k 0).setWidth 32

/-- R87 `pack(n, bytes)`: four bytes a word, byte 0 least significant. -/
def pack (n : Nat) (bytes : List Byte) : Vec :=
  ⟨(List.range (n / 32)).map fun k =>
    byteAsWord bytes (4 * k) ||| byteAsWord bytes (4 * k + 1) <<< 8
      ||| byteAsWord bytes (4 * k + 2) <<< 16 ||| byteAsWord bytes (4 * k + 3) <<< 24⟩

/-- R16 `render(v)`: `v.size` characters, the one at position `p` showing bit `v.size - 1 - p`. An
observation function, not a command. -/
def render (v : Vec) : List Char :=
  (List.range v.size).map fun p => if v.bit (v.size - 1 - p) then '1' else '0'

/-- The integer a vector is read as in R82: the sum of `bit(v, i) * 2^i`, word by word. -/
def Vec.toNat (v : Vec) : Nat := v.words.foldr (fun w acc => w.toNat + 2 ^ 32 * acc) 0

end Sys2Proof.Machine
end

