-- ==== Sys2Proof/Machine/Operands.lean ====
section
/-! DEFINITION. Scalar operands (spec/30_encoding.md R56; spec/00_scope.md R7) and the size test
(spec/40_construct_boolean.md R63). -/

namespace Sys2Proof.Machine

/-- R7 `int32(w)`: the two's-complement value of `w`. -/
def int32 (w : Word) : Int := if w.msb then (w.toNat : Int) - 2 ^ 32 else w.toNat

/-- R7 `u32(x)`: `x mod 2^32`. -/
def u32 (x : Int) : Word := BitVec.ofInt 32 x

/-- R63 `sizeOK(n)`: `n > 0` and `n mod 32 = 0`. -/
def sizeOK (n : Int) : Bool := decide (0 < n) && decide (floorMod n 32 = 0)

/-- The size of VFILL and BNEW (R56). -/
def State.sizeArg (s : State) : Int := int32 s.arg0

/-- The start of VXZ and VXW (R56, R57): any 32-bit signed value is legal. -/
def State.startArg (s : State) : Int := int32 s.arg0

/-- The window size of VXZ and VXW (R56). -/
def State.windowArg (s : State) : Int := int32 s.arg1

/-- The byte index of BSET and the word index of VRDW (R56). -/
def State.indexArg (s : State) : Int := int32 s.arg0

/-- The fill bit of VFILL and the byte value of BSET, unsigned (R56). -/
def State.valueArg (s : State) : Nat := s.arg1.toNat

end Sys2Proof.Machine
end

