-- ==== Sys2Proof/Machine/Ops.lean ====
section
/-! DEFINITION. The named operations every command is written over: registers, the end of a command
and the raising of an error (spec/20_memory.md R45, spec/60_exceptions.md R99), the checks of
spec/60_exceptions.md R98, and the register window (spec/20_memory.md R34 to R38). -/

namespace Sys2Proof.Machine

/-- The three outcomes at this machine's types. -/
abbrev Out := Host.Outcome State Fault Refusal

/-! ## Vector registers -/

/-- `VR[i]` (R9, R18). -/
def State.vreg (s : State) (r : VReg) : Option Vec := s.vr[r]

/-- `VR[i] <- Valid(v)` (R9, R17, R18): the register's previous value is replaced whole. -/
def State.setVreg (s : State) (r : VReg) (v : Vec) : State := { s with vr := s.vr.set r (some v) }

/-! ## The end of a command -/

/-- `raise E` (R99): `STATUS.ERR` becomes the code of `E` and `STATUS.ANYERR` becomes 1; nothing else
changes. This is all there is of taking an exception: there is no trap, vector or handler (R102). -/
def raise (e : ErrKind) (s : State) : Out := .next { s with err := some e, anyErr := true }

/-- A command that ends without an error (R45): `STATUS.ERR` becomes 0 and `ANYERR` stays. There is no
return from an error to model: the next command runs as normal (R100). -/
def succeed (s : State) : Out := .next { s with err := none }

/-! ## Checks, each of which raises its error or goes on -/

/-- A check: go on with `k` if `ok`, else raise `e`. -/
def check (ok : Bool) (e : ErrKind) (s : State) (k : Out) : Out := if ok then k else raise e s

/-- Read a source register (R19): an `Invalid` one raises `UnwrittenRegister`. -/
def needVec (r : VReg) (s : State) (k : Vec → Out) : Out :=
  match s.vreg r with
  | none   => raise .unwrittenRegister s
  | some v => k v

/-- The size checks (R98 step 4): `sizeOK(n)` or the error `e`, then the capacity (R33). -/
def needSize (n : Int) (e : ErrKind) (s : State) (k : Nat → Out) : Out :=
  check (sizeOK n) e s (check (decide (n ≤ s.config.maxBits)) .capacityExceeded s (k n.toNat))

/-- An index check (R98 step 6): `0 <= k < bound`, else `IndexOutOfRange`. -/
def needIndex (i : Int) (bound : Nat) (s : State) (k : Nat → Out) : Out :=
  check (decide (0 ≤ i) && decide (i < bound)) .indexOutOfRange s (k i.toNat)

/-- The builder-state checks (R98 step 3): `NoBuilder` before `AlreadyBuilt`. -/
def needOpen (s : State) (k : Out) : Out :=
  match s.builder.state with
  | .idle     => raise .noBuilder s
  | .consumed => raise .alreadyBuilt s
  | .opened   => k

/-! ## The register window -/

/-- `VRVALID` (R28): bit `i`, for `i < 16`, is 1 iff `VR[i]` is `Valid`; bits 31:16 read as 0. -/
def State.vrvalidWord (s : State) : Word := wordOfBits fun i => (s.vr[i]?.getD none).isSome

/-- `BLDSIZE` (R27): `B.size`. -/
def State.bldsizeWord (s : State) : Word := BitVec.ofNat 32 s.builder.size

/-- `MAXWORDS` (R25): the parameter `MAX_WORDS`. -/
def State.maxwordsWord (s : State) : Word := BitVec.ofNat 32 s.config.maxWords

/-- The offsets of R34. -/
def Reg.offset : Reg → Nat
  | .cmd      => 0x00
  | .arg0     => 0x04
  | .arg1     => 0x08
  | .result   => 0x0C
  | .status   => 0x10
  | .maxwords => 0x14
  | .bldsize  => 0x18
  | .vrvalid  => 0x1C

/-- The register at a 4-byte aligned offset of the window (R34: no offset of it is unmapped). -/
def Reg.ofOffset (off : Nat) : Reg :=
  match off / 4 with
  | 0 => .cmd
  | 1 => .arg0
  | 2 => .arg1
  | 3 => .result
  | 4 => .status
  | 5 => .maxwords
  | 6 => .bldsize
  | _ => .vrvalid

/-- The value a read of a register returns (R34). -/
def State.readReg (s : State) : Reg → Word
  | .cmd      => s.cmd
  | .arg0     => s.arg0
  | .arg1     => s.arg1
  | .result   => s.result
  | .status   => s.statusWord
  | .maxwords => s.maxwordsWord
  | .bldsize  => s.bldsizeWord
  | .vrvalid  => s.vrvalidWord

/-- Which register an access of `width` bytes at `addr` reaches (R34 to R36), or why the block does
not perform it: outside the window (the platform's, log entry 8), or a bus error (R37). -/
def busTarget (c : Config) (addr width : Nat) : Except Refusal Reg :=
  if addr < c.base ∨ c.base + 32 ≤ addr then .error .outsideWindow
  else if width ≠ 4 then .error .busErrorWidth
  else if (addr - c.base) % 4 ≠ 0 then .error .busErrorMisaligned
  else .ok (Reg.ofOffset (addr - c.base))

end Sys2Proof.Machine
end

