-- ==== Sys2Proof/Machine/BuilderUnit.lean ====
section
/-! DEFINITION. The builder staging unit: BNEW, BSET, BBUILD (spec/42_builder.md R83 to R87). -/

namespace Sys2Proof.Machine

/-- BNEW (R84): from any builder state, a new open builder of `n / 8` zero bytes. -/
def execBnew (s : State) : Out :=
  needSize s.sizeArg .invalidSize s fun n =>
  succeed { s with builder := ⟨.opened, n, List.replicate (n / 8) 0⟩ }

/-- BSET (R85): byte `k` becomes `ARG1[7:0]`; no other byte changes. -/
def execBset (s : State) : Out :=
  needOpen s <|
  needIndex s.indexArg (s.builder.size / 8) s fun k =>
  check (decide (s.valueArg ≤ 0xFF)) .valueOutOfRange s <|
  succeed { s with builder := { s.builder with bytes := s.builder.bytes.set k (s.arg1.extractLsb' 0 8) } }

/-- BBUILD (R86): `VR[d]` becomes the packed bytes, and the builder is consumed. -/
def execBbuild (d : VReg) (s : State) : Out :=
  needOpen s <|
  succeed { s.setVreg d (pack s.builder.size s.builder.bytes) with
    builder := { s.builder with state := .consumed } }

end Sys2Proof.Machine
end

