-- ==== Sys2Proof/Machine/Construct.lean ====
section
/-! DEFINITION. Construction, size, boolean unit and equality: VFILL, VSIZE, VNOT, VAND, VOR, VEQ
(spec/40_construct_boolean.md R65 to R70). -/

namespace Sys2Proof.Machine

/-- VFILL (R65). -/
def execVfill (d : VReg) (s : State) : Out :=
  needSize s.sizeArg .invalidSize s fun n =>
  check (decide (s.valueArg ≤ 1)) .valueOutOfRange s <|
  succeed (s.setVreg d (fill n (decide (s.valueArg = 1))))

/-- VSIZE (R66). -/
def execVsize (a : VReg) (s : State) : Out :=
  needVec a s fun v => succeed { s with result := u32 v.size }

/-- VNOT (R67). -/
def execVnot (d a : VReg) (s : State) : Out :=
  needVec a s fun v => succeed (s.setVreg d (vnot v))

/-- VAND (R68). -/
def execVand (d a b : VReg) (s : State) : Out :=
  needVec a s fun va => needVec b s fun vb =>
  check (decide (va.size = vb.size)) .sizeMismatch s <|
  succeed (s.setVreg d (vand va vb))

/-- VOR (R69). -/
def execVor (d a b : VReg) (s : State) : Out :=
  needVec a s fun va => needVec b s fun vb =>
  check (decide (va.size = vb.size)) .sizeMismatch s <|
  succeed (s.setVreg d (vor va vb))

/-- VEQ (R70): equality of R15, size and words. -/
def execVeq (a b : VReg) (s : State) : Out :=
  needVec a s fun va => needVec b s fun vb =>
  succeed { s with result := if va = vb then 1 else 0 }

end Sys2Proof.Machine
end

