-- ==== Sys2Proof/Machine/Extract.lean ====
section
/-! DEFINITION. Windowed extraction: VXZ and VXW (spec/41_extract.md R79, R80). -/

namespace Sys2Proof.Machine

/-- VXZ (R79). No value of `start` raises. -/
def execVxz (d a : VReg) (s : State) : Out :=
  needVec a s fun v =>
  needSize s.windowArg .invalidWindowSize s fun size =>
  succeed (s.setVreg d (extractZ v s.startArg size))

/-- VXW (R80). No value of `start` raises. -/
def execVxw (d a : VReg) (s : State) : Out :=
  needVec a s fun v =>
  needSize s.windowArg .invalidWindowSize s fun size =>
  succeed (s.setVreg d (extractW v s.startArg size))

end Sys2Proof.Machine
end

