-- ==== Sys2Proof/Machine/Readout.lean ====
section
/-! DEFINITION. Readout and no-op: VRDW, NOP (spec/43_readout_control.md R90, R91). -/

namespace Sys2Proof.Machine

/-- VRDW (R90): `RESULT` becomes word `ARG0` of `VR[a]`. -/
def execVrdw (a : VReg) (s : State) : Out :=
  needVec a s fun v =>
  needIndex s.indexArg (v.size / 32) s fun k =>
  succeed { s with result := v.word k }

/-- NOP (R91): only `STATUS.ERR` is written, with 0. -/
def execNop (s : State) : Out := succeed s

end Sys2Proof.Machine
end

