-- ==== Sys2Proof/Machine/Dispatch.lean ====
section
/-! DEFINITION. One arm per command (spec/30_encoding.md R52), each a direct call of its meaning. -/

namespace Sys2Proof.Machine

-- `Execute` of spec/20_memory.md R45, on the state in which CMD already holds the word (log entry 17).
def exec (i : Instr) (s : State) : Host.Outcome State Fault Refusal :=
  match i with
  | .nop => Sys2Proof.Machine.execNop s
  | .vfill d => Sys2Proof.Machine.execVfill d s
  | .vsize a => Sys2Proof.Machine.execVsize a s
  | .vnot d a => Sys2Proof.Machine.execVnot d a s
  | .vand d a b => Sys2Proof.Machine.execVand d a b s
  | .vor d a b => Sys2Proof.Machine.execVor d a b s
  | .veq a b => Sys2Proof.Machine.execVeq a b s
  | .vxz d a => Sys2Proof.Machine.execVxz d a s
  | .vxw d a => Sys2Proof.Machine.execVxw d a s
  | .bnew => Sys2Proof.Machine.execBnew s
  | .bset => Sys2Proof.Machine.execBset s
  | .bbuild d => Sys2Proof.Machine.execBbuild d s
  | .vrdw a => Sys2Proof.Machine.execVrdw a s

end Sys2Proof.Machine
end

