-- ==== Sys2Proof/Machine/Bus.lean ====
section
/-! DEFINITION. What the block does at each host event: reads, writes, the command a `CMD` write runs,
and reset (spec/20_memory.md R34 to R47; spec/43_readout_control.md R92;
spec/70_reset_and_hazards.md R111, R112). -/

namespace Sys2Proof.Machine

/-- R45: a write of `x` to `CMD` stores `x` and runs it as one command. An illegal word raises
`IllegalCommand` (R92), before every other check. -/
def runCommand (x : Word) (s : State) : Out :=
  match decode x with
  | .ok i    => exec i { s with cmd := x }
  | .error _ => raise .illegalCommand { s with cmd := x }

/-- `MemWrite` of `x` to a register (R34, R38, R40, R45). -/
def writeReg (r : Reg) (x : Word) (s : State) : Out :=
  match r with
  | .cmd      => runCommand x s
  | .arg0     => .next { s with arg0 := x }
  | .arg1     => .next { s with arg1 := x }
  | .result   => .refused .busErrorReadOnly
  | .status   => .refused .busErrorReadOnly
  | .maxwords => .refused .busErrorReadOnly
  | .bldsize  => .refused .busErrorReadOnly
  | .vrvalid  => .refused .busErrorReadOnly

/-- One host event, in a state from whose queue it has been taken. A read returns the register's value
and changes nothing of the block (R39). Reset gives the reset state of the same parameters and runs no
command (R111, R112); the host's later events stand (log entry 15). -/
def serve (e : HostEvent) (s : State) : Out :=
  match e with
  | .read addr width =>
    match busTarget s.config addr width with
    | .error r => .refused r
    | .ok r    => .next { s with readData := some (s.readReg r) }
  | .write addr width x =>
    match busTarget s.config addr width with
    | .error r => .refused r
    | .ok r    => writeReg r x s
  | .reset => .next { State.resetWith s.config with host := s.host }

/-- The `CMD` write that issues a word (R60). -/
def cmdWrite (c : Config) (x : Word) : HostEvent := .write (c.base + Reg.cmd.offset) 4 x

end Sys2Proof.Machine
end

