-- ==== Sys2Proof/Machine/Step.lean ====
section
/-! DEFINITION. One step: the block performs the host's next event (spec/20_memory.md R46). The block
fetches nothing (R49); the next instruction is the word of the next `CMD` write. -/

namespace Sys2Proof.Machine

/-- The block performs the oldest pending event; with none pending it stays idle (R122, log entry
14). -/
def step (s : State) : Host.Outcome State Fault Refusal :=
  match s.host with
  | []      => .next s
  | e :: es => serve e { s with host := es }

/-- `s` with the host about to issue the command whose bits are `w` (log entry 5): one `CMD` write in
front of the pending events. -/
def State.withFetchWord (s : State) (nbits w : Nat) : State :=
  { s with host := cmdWrite s.config (tableWord nbits w) :: s.host }

end Sys2Proof.Machine
end

