-- ==== Sys2Proof/Laws/Encoding.lean ====
section
/-! SUPPORT. The fields of an assembled word are the fields assembled, and a word is its fields. -/

namespace Sys2Proof

theorem Cmd.ofWord_toWord (c : Cmd) : Cmd.ofWord c.toWord = c := by
  obtain ⟨rsv, vb, va, vd, op⟩ := c
  simp only [Cmd.ofWord, Cmd.toWord, Cmd.mk.injEq]
  refine ⟨?_, ?_, ?_, ?_, ?_⟩ <;>
    exact BitVec.eq_of_getLsbD_eq fun i hi => by
      simp only [BitVec.getLsbD_extractLsb', BitVec.getLsbD_append]
      grind

theorem Cmd.toWord_ofWord (x : Word) : (Cmd.ofWord x).toWord = x := by
  refine BitVec.eq_of_getLsbD_eq fun i hi => ?_
  simp only [Cmd.ofWord, Cmd.toWord, BitVec.getLsbD_extractLsb', BitVec.getLsbD_append]
  grind

end Sys2Proof
end

