-- ==== Sys2Proof/Laws/PerInstr.lean ====
section
/-! SUPPORT. The statements made for every instruction, one lemma a constructor. -/

namespace Sys2Proof.Laws.Legal

/-- The word an instruction encodes to has the instruction's fields, and they are legal (R53, R54). -/
def Statement (i : Instr) : Prop := Cmd.ofWord (encode i) = i.cmd ∧ i.wf = true

theorem nop : Statement .nop := ⟨Cmd.ofWord_toWord _, by decide⟩
theorem vfill (d : VReg) : Statement (.vfill d) := ⟨Cmd.ofWord_toWord _, rfl⟩
theorem vsize (a : VReg) : Statement (.vsize a) := ⟨Cmd.ofWord_toWord _, rfl⟩
theorem vnot (d a : VReg) : Statement (.vnot d a) := ⟨Cmd.ofWord_toWord _, rfl⟩
theorem vand (d a b : VReg) : Statement (.vand d a b) := ⟨Cmd.ofWord_toWord _, rfl⟩
theorem vor (d a b : VReg) : Statement (.vor d a b) := ⟨Cmd.ofWord_toWord _, rfl⟩
theorem veq (a b : VReg) : Statement (.veq a b) := ⟨Cmd.ofWord_toWord _, rfl⟩
theorem vxz (d a : VReg) : Statement (.vxz d a) := ⟨Cmd.ofWord_toWord _, rfl⟩
theorem vxw (d a : VReg) : Statement (.vxw d a) := ⟨Cmd.ofWord_toWord _, rfl⟩
theorem bnew : Statement .bnew := ⟨Cmd.ofWord_toWord _, by decide⟩
theorem bset : Statement .bset := ⟨Cmd.ofWord_toWord _, by decide⟩
theorem bbuild (d : VReg) : Statement (.bbuild d) := ⟨Cmd.ofWord_toWord _, rfl⟩
theorem vrdw (a : VReg) : Statement (.vrdw a) := ⟨Cmd.ofWord_toWord _, rfl⟩

end Sys2Proof.Laws.Legal
end

