-- ==== Sys2Proof/Laws/State.lean ====
section
/-! SUPPORT. What the named updates of a state do to each field, and reads after writes of a vector
register. Later proofs cite these and unfold no record update. -/

namespace Sys2Proof.Machine

theorem Config.maxBits_eq (c : Config) : c.maxBits = 32 * c.maxWords := rfl

section setVreg
variable (s : State) (r q : VReg) (v : Vec)

@[simp] theorem State.setVreg_config : (s.setVreg r v).config = s.config := rfl
@[simp] theorem State.setVreg_vr : (s.setVreg r v).vr = s.vr.set r (some v) := rfl
@[simp] theorem State.setVreg_arg0 : (s.setVreg r v).arg0 = s.arg0 := rfl
@[simp] theorem State.setVreg_arg1 : (s.setVreg r v).arg1 = s.arg1 := rfl
@[simp] theorem State.setVreg_result : (s.setVreg r v).result = s.result := rfl
@[simp] theorem State.setVreg_cmd : (s.setVreg r v).cmd = s.cmd := rfl
@[simp] theorem State.setVreg_err : (s.setVreg r v).err = s.err := rfl
@[simp] theorem State.setVreg_anyErr : (s.setVreg r v).anyErr = s.anyErr := rfl
@[simp] theorem State.setVreg_builder : (s.setVreg r v).builder = s.builder := rfl
@[simp] theorem State.setVreg_host : (s.setVreg r v).host = s.host := rfl
@[simp] theorem State.setVreg_readData : (s.setVreg r v).readData = s.readData := rfl

theorem State.vreg_setVreg : (s.setVreg r v).vreg q = if r = q then some v else s.vreg q := by
  simp [State.vreg, State.setVreg, Vector.getElem_set, Fin.val_inj]

@[simp] theorem State.vreg_setVreg_same : (s.setVreg r v).vreg r = some v := by
  simp [State.vreg_setVreg]

theorem State.vreg_setVreg_ne (h : r ≠ q) : (s.setVreg r v).vreg q = s.vreg q := by
  simp [State.vreg_setVreg, h]

end setVreg

/-- Only `vr` decides what a vector register reads as. -/
theorem State.vreg_congr {s t : State} (h : s.vr = t.vr) (r : VReg) : s.vreg r = t.vreg r := by
  simp [State.vreg, h]

section updates
variable (s : State) (r : VReg)

@[simp] theorem State.vreg_err (e : Option ErrKind) : { s with err := e }.vreg r = s.vreg r := rfl
@[simp] theorem State.vreg_raised (e : Option ErrKind) (b : Bool) :
    { s with err := e, anyErr := b }.vreg r = s.vreg r := rfl
@[simp] theorem State.vreg_result (w : Word) : { s with result := w }.vreg r = s.vreg r := rfl
@[simp] theorem State.vreg_cmd (w : Word) : { s with cmd := w }.vreg r = s.vreg r := rfl
@[simp] theorem State.vreg_arg0 (w : Word) : { s with arg0 := w }.vreg r = s.vreg r := rfl
@[simp] theorem State.vreg_arg1 (w : Word) : { s with arg1 := w }.vreg r = s.vreg r := rfl
@[simp] theorem State.vreg_builder (b : Builder) : { s with builder := b }.vreg r = s.vreg r := rfl
@[simp] theorem State.vreg_host (h : List HostEvent) : { s with host := h }.vreg r = s.vreg r := rfl
@[simp] theorem State.vreg_readData (w : Option Word) :
    { s with readData := w }.vreg r = s.vreg r := rfl

end updates

section resetWith
variable (c : Config) (r : VReg)

@[simp] theorem State.resetWith_config : (State.resetWith c).config = c := rfl
@[simp] theorem State.resetWith_arg0 : (State.resetWith c).arg0 = 0 := rfl
@[simp] theorem State.resetWith_arg1 : (State.resetWith c).arg1 = 0 := rfl
@[simp] theorem State.resetWith_result : (State.resetWith c).result = 0 := rfl
@[simp] theorem State.resetWith_cmd : (State.resetWith c).cmd = 0 := rfl
@[simp] theorem State.resetWith_err : (State.resetWith c).err = none := rfl
@[simp] theorem State.resetWith_anyErr : (State.resetWith c).anyErr = false := rfl
@[simp] theorem State.resetWith_builder : (State.resetWith c).builder = ⟨.idle, 0, []⟩ := rfl
@[simp] theorem State.resetWith_host : (State.resetWith c).host = [] := rfl
@[simp] theorem State.resetWith_readData : (State.resetWith c).readData = none := rfl
@[simp] theorem State.vreg_resetWith : (State.resetWith c).vreg r = none := by
  simp [State.vreg, State.resetWith]

end resetWith

end Sys2Proof.Machine
end

