-- ==== Sys2Proof/Laws/Ops.lean ====
section
/-! SUPPORT. What each shared operation can answer: the error it raises, or what its continuation
answers. Proofs about the meanings cite these and do not unfold the operations. -/

namespace Sys2Proof.Machine

/-- The state after `raise e` (R99). -/
def State.raised (s : State) (e : ErrKind) : State := { s with err := some e, anyErr := true }

theorem raise_eq (e : ErrKind) (s : State) : raise e s = .next (s.raised e) := rfl

theorem succeed_eq (s : State) : succeed s = .next { s with err := none } := rfl

variable {s : State} {o : Out}

theorem check_cases {ok : Bool} {e : ErrKind} {k : Out} (h : check ok e s k = o) :
    (ok = false ∧ o = .next (s.raised e)) ∨ (ok = true ∧ k = o) := by
  cases ok
  · exact .inl ⟨rfl, h.symm⟩
  · exact .inr ⟨rfl, h⟩

theorem needVec_cases {r : VReg} {k : Vec → Out} (h : needVec r s k = o) :
    (s.vreg r = none ∧ o = .next (s.raised .unwrittenRegister)) ∨
    ∃ v, s.vreg r = some v ∧ k v = o := by
  unfold needVec at h
  split at h
  · exact .inl ⟨‹_›, h.symm⟩
  · exact .inr ⟨_, ‹_›, h⟩

theorem needSize_cases {n : Int} {e : ErrKind} {k : Nat → Out} (h : needSize n e s k = o) :
    (sizeOK n = false ∧ o = .next (s.raised e)) ∨
    (sizeOK n = true ∧ ¬ n ≤ s.config.maxBits ∧ o = .next (s.raised .capacityExceeded)) ∨
    (sizeOK n = true ∧ n ≤ s.config.maxBits ∧ k n.toNat = o) := by
  obtain ⟨h1, h2⟩ | ⟨h1, h⟩ := check_cases h
  · exact .inl ⟨h1, h2⟩
  · obtain ⟨h2, h3⟩ | ⟨h2, h⟩ := check_cases h
    · exact .inr (.inl ⟨h1, of_decide_eq_false h2, h3⟩)
    · exact .inr (.inr ⟨h1, of_decide_eq_true h2, h⟩)

theorem needIndex_cases {i : Int} {bound : Nat} {k : Nat → Out} (h : needIndex i bound s k = o) :
    (¬ (0 ≤ i ∧ i < bound) ∧ o = .next (s.raised .indexOutOfRange)) ∨
    (0 ≤ i ∧ i < bound ∧ k i.toNat = o) := by
  obtain ⟨h1, h2⟩ | ⟨h1, h⟩ := check_cases h
  · exact .inl ⟨fun ⟨a, b⟩ => by simp [a, b] at h1, h2⟩
  · simp only [Bool.and_eq_true, decide_eq_true_eq] at h1
    exact .inr ⟨h1.1, h1.2, h⟩

theorem needOpen_cases {k : Out} (h : needOpen s k = o) :
    (s.builder.state = .idle ∧ o = .next (s.raised .noBuilder)) ∨
    (s.builder.state = .consumed ∧ o = .next (s.raised .alreadyBuilt)) ∨
    (s.builder.state = .opened ∧ k = o) := by
  unfold needOpen at h
  split at h
  · exact .inl ⟨‹_›, h.symm⟩
  · exact .inr (.inl ⟨‹_›, h.symm⟩)
  · exact .inr (.inr ⟨‹_›, h⟩)

section forward
variable {e : ErrKind}

@[simp] theorem check_true (k : Out) : check true e s k = k := rfl
@[simp] theorem check_false (k : Out) : check false e s k = .next (s.raised e) := rfl

theorem check_pos {p : Prop} [Decidable p] (h : p) (k : Out) : check (decide p) e s k = k := by
  simp [h]

theorem check_neg {p : Prop} [Decidable p] (h : ¬ p) (k : Out) :
    check (decide p) e s k = .next (s.raised e) := by
  simp [h]

theorem needVec_none {r : VReg} {k : Vec → Out} (h : s.vreg r = none) :
    needVec r s k = .next (s.raised .unwrittenRegister) := by simp [needVec, h, raise_eq]

theorem needVec_some {r : VReg} {k : Vec → Out} {v : Vec} (h : s.vreg r = some v) :
    needVec r s k = k v := by simp [needVec, h]

theorem needSize_bad {n : Int} {k : Nat → Out} (h : sizeOK n = false) :
    needSize n e s k = .next (s.raised e) := by simp [needSize, h]

theorem needSize_big {n : Int} {k : Nat → Out} (h : sizeOK n = true) (hb : ¬ n ≤ s.config.maxBits) :
    needSize n e s k = .next (s.raised .capacityExceeded) := by
  rw [needSize, h, check_true, decide_eq_false hb, check_false]

theorem needSize_ok {n : Int} {k : Nat → Out} (h : sizeOK n = true) (hb : n ≤ s.config.maxBits) :
    needSize n e s k = k n.toNat := by
  rw [needSize, h, check_true, decide_eq_true hb, check_true]

theorem needIndex_ok {i : Int} {bound : Nat} {k : Nat → Out} (h0 : 0 ≤ i) (h1 : i < bound) :
    needIndex i bound s k = k i.toNat := by simp [needIndex, h0, h1]

theorem needIndex_bad {i : Int} {bound : Nat} {k : Nat → Out} (h : ¬ (0 ≤ i ∧ i < bound)) :
    needIndex i bound s k = .next (s.raised .indexOutOfRange) := by
  have : (decide (0 ≤ i) && decide (i < bound)) = false := by
    simpa only [← Bool.decide_and, decide_eq_false_iff_not] using h
  rw [needIndex, this, check_false]

theorem needOpen_opened {k : Out} (h : s.builder.state = .opened) : needOpen s k = k := by
  simp [needOpen, h]

end forward

/-- An accepted access reaches a register (R34). -/
theorem busTarget_offset (c : Config) (r : Reg) : busTarget c (c.base + r.offset) 4 = .ok r := by
  cases r <;> simp [busTarget, Reg.offset, Reg.ofOffset]

end Sys2Proof.Machine
end

