-- ==== Sys2Proof/Laws/Exec.lean ====
section
/-! SUPPORT. What each meaning can answer, once: the errors it raises with their conditions, or the
state after success. The invariants and whole-machine rules follow from these. -/

namespace Sys2Proof.Machine

variable {s : State} {o : Out}

theorem execVfill_cases {d : VReg} (h : execVfill d s = o) :
    (sizeOK s.sizeArg = false ∧ o = .next (s.raised .invalidSize)) ∨
    (sizeOK s.sizeArg = true ∧ ¬ s.sizeArg ≤ s.config.maxBits ∧ o = .next (s.raised .capacityExceeded)) ∨
    (sizeOK s.sizeArg = true ∧ s.sizeArg ≤ s.config.maxBits ∧ ¬ s.valueArg ≤ 1 ∧
      o = .next (s.raised .valueOutOfRange)) ∨
    (sizeOK s.sizeArg = true ∧ s.sizeArg ≤ s.config.maxBits ∧ s.valueArg ≤ 1 ∧
      o = .next { s.setVreg d (fill s.sizeArg.toNat (decide (s.valueArg = 1))) with err := none }) := by
  obtain h1 | h1 | ⟨h1, h2, h⟩ := needSize_cases h
  · exact .inl h1
  · exact .inr (.inl h1)
  · obtain ⟨h3, h4⟩ | ⟨h3, h⟩ := check_cases h
    · exact .inr (.inr (.inl ⟨h1, h2, of_decide_eq_false h3, h4⟩))
    · exact .inr (.inr (.inr ⟨h1, h2, of_decide_eq_true h3, h.symm⟩))

theorem execVsize_cases {a : VReg} (h : execVsize a s = o) :
    (s.vreg a = none ∧ o = .next (s.raised .unwrittenRegister)) ∨
    ∃ v, s.vreg a = some v ∧ o = .next { s with result := u32 v.size, err := none } := by
  obtain h1 | ⟨v, h1, h⟩ := needVec_cases h
  · exact .inl h1
  · exact .inr ⟨v, h1, h.symm⟩

theorem execVnot_cases {d a : VReg} (h : execVnot d a s = o) :
    (s.vreg a = none ∧ o = .next (s.raised .unwrittenRegister)) ∨
    ∃ v, s.vreg a = some v ∧ o = .next { s.setVreg d (vnot v) with err := none } := by
  obtain h1 | ⟨v, h1, h⟩ := needVec_cases h
  · exact .inl h1
  · exact .inr ⟨v, h1, h.symm⟩

/-- The shape VAND and VOR share. -/
theorem binary_cases {a b : VReg} {k : Vec → Vec → Out}
    (h : (needVec a s fun va => needVec b s fun vb =>
      check (decide (va.size = vb.size)) .sizeMismatch s (k va vb)) = o) :
    ((s.vreg a = none ∨ s.vreg b = none) ∧ o = .next (s.raised .unwrittenRegister)) ∨
    ∃ va vb, s.vreg a = some va ∧ s.vreg b = some vb ∧
      ((va.size ≠ vb.size ∧ o = .next (s.raised .sizeMismatch)) ∨ (va.size = vb.size ∧ k va vb = o)) := by
  obtain ⟨h1, h2⟩ | ⟨va, h1, h⟩ := needVec_cases h
  · exact .inl ⟨.inl h1, h2⟩
  · obtain ⟨h3, h4⟩ | ⟨vb, h3, h⟩ := needVec_cases h
    · exact .inl ⟨.inr h3, h4⟩
    · obtain ⟨h5, h6⟩ | ⟨h5, h⟩ := check_cases h
      · exact .inr ⟨va, vb, h1, h3, .inl ⟨of_decide_eq_false h5, h6⟩⟩
      · exact .inr ⟨va, vb, h1, h3, .inr ⟨of_decide_eq_true h5, h⟩⟩

theorem execVand_cases {d a b : VReg} (h : execVand d a b s = o) :
    ((s.vreg a = none ∨ s.vreg b = none) ∧ o = .next (s.raised .unwrittenRegister)) ∨
    ∃ va vb, s.vreg a = some va ∧ s.vreg b = some vb ∧
      ((va.size ≠ vb.size ∧ o = .next (s.raised .sizeMismatch)) ∨
       (va.size = vb.size ∧ o = .next { s.setVreg d (vand va vb) with err := none })) := by
  obtain h1 | ⟨va, vb, h1, h2, h3 | ⟨h3, h⟩⟩ := binary_cases h
  · exact .inl h1
  · exact .inr ⟨va, vb, h1, h2, .inl h3⟩
  · exact .inr ⟨va, vb, h1, h2, .inr ⟨h3, h.symm⟩⟩

theorem execVor_cases {d a b : VReg} (h : execVor d a b s = o) :
    ((s.vreg a = none ∨ s.vreg b = none) ∧ o = .next (s.raised .unwrittenRegister)) ∨
    ∃ va vb, s.vreg a = some va ∧ s.vreg b = some vb ∧
      ((va.size ≠ vb.size ∧ o = .next (s.raised .sizeMismatch)) ∨
       (va.size = vb.size ∧ o = .next { s.setVreg d (vor va vb) with err := none })) := by
  obtain h1 | ⟨va, vb, h1, h2, h3 | ⟨h3, h⟩⟩ := binary_cases h
  · exact .inl h1
  · exact .inr ⟨va, vb, h1, h2, .inl h3⟩
  · exact .inr ⟨va, vb, h1, h2, .inr ⟨h3, h.symm⟩⟩

theorem execVeq_cases {a b : VReg} (h : execVeq a b s = o) :
    ((s.vreg a = none ∨ s.vreg b = none) ∧ o = .next (s.raised .unwrittenRegister)) ∨
    ∃ va vb, s.vreg a = some va ∧ s.vreg b = some vb ∧
      o = .next { s with result := if va = vb then 1 else 0, err := none } := by
  obtain ⟨h1, h2⟩ | ⟨va, h1, h⟩ := needVec_cases h
  · exact .inl ⟨.inl h1, h2⟩
  · obtain ⟨h3, h4⟩ | ⟨vb, h3, h⟩ := needVec_cases h
    · exact .inl ⟨.inr h3, h4⟩
    · exact .inr ⟨va, vb, h1, h3, h.symm⟩

/-- The shape VXZ and VXW share. -/
theorem window_cases {d a : VReg} {f : Vec → Nat → Vec}
    (h : (needVec a s fun v => needSize s.windowArg .invalidWindowSize s fun n =>
      succeed (s.setVreg d (f v n))) = o) :
    (s.vreg a = none ∧ o = .next (s.raised .unwrittenRegister)) ∨
    ∃ v, s.vreg a = some v ∧
      ((sizeOK s.windowArg = false ∧ o = .next (s.raised .invalidWindowSize)) ∨
       (sizeOK s.windowArg = true ∧ ¬ s.windowArg ≤ s.config.maxBits ∧
         o = .next (s.raised .capacityExceeded)) ∨
       (sizeOK s.windowArg = true ∧ s.windowArg ≤ s.config.maxBits ∧
         o = .next { s.setVreg d (f v s.windowArg.toNat) with err := none })) := by
  obtain h1 | ⟨v, h1, h⟩ := needVec_cases h
  · exact .inl h1
  · obtain h2 | h2 | ⟨h2, h3, h⟩ := needSize_cases h
    · exact .inr ⟨v, h1, .inl h2⟩
    · exact .inr ⟨v, h1, .inr (.inl h2)⟩
    · exact .inr ⟨v, h1, .inr (.inr ⟨h2, h3, h.symm⟩)⟩

theorem execVxz_cases {d a : VReg} (h : execVxz d a s = o) :
    (s.vreg a = none ∧ o = .next (s.raised .unwrittenRegister)) ∨
    ∃ v, s.vreg a = some v ∧
      ((sizeOK s.windowArg = false ∧ o = .next (s.raised .invalidWindowSize)) ∨
       (sizeOK s.windowArg = true ∧ ¬ s.windowArg ≤ s.config.maxBits ∧
         o = .next (s.raised .capacityExceeded)) ∨
       (sizeOK s.windowArg = true ∧ s.windowArg ≤ s.config.maxBits ∧
         o = .next { s.setVreg d (extractZ v s.startArg s.windowArg.toNat) with err := none })) :=
  window_cases (f := fun v n => extractZ v s.startArg n) h

theorem execVxw_cases {d a : VReg} (h : execVxw d a s = o) :
    (s.vreg a = none ∧ o = .next (s.raised .unwrittenRegister)) ∨
    ∃ v, s.vreg a = some v ∧
      ((sizeOK s.windowArg = false ∧ o = .next (s.raised .invalidWindowSize)) ∨
       (sizeOK s.windowArg = true ∧ ¬ s.windowArg ≤ s.config.maxBits ∧
         o = .next (s.raised .capacityExceeded)) ∨
       (sizeOK s.windowArg = true ∧ s.windowArg ≤ s.config.maxBits ∧
         o = .next { s.setVreg d (extractW v s.startArg s.windowArg.toNat) with err := none })) :=
  window_cases (f := fun v n => extractW v s.startArg n) h

theorem execBnew_cases (h : execBnew s = o) :
    (sizeOK s.sizeArg = false ∧ o = .next (s.raised .invalidSize)) ∨
    (sizeOK s.sizeArg = true ∧ ¬ s.sizeArg ≤ s.config.maxBits ∧ o = .next (s.raised .capacityExceeded)) ∨
    (sizeOK s.sizeArg = true ∧ s.sizeArg ≤ s.config.maxBits ∧
      o = .next { s with
        builder := ⟨.opened, s.sizeArg.toNat, List.replicate (s.sizeArg.toNat / 8) 0⟩, err := none }) := by
  obtain h1 | h1 | ⟨h1, h2, h⟩ := needSize_cases h
  · exact .inl h1
  · exact .inr (.inl h1)
  · exact .inr (.inr ⟨h1, h2, h.symm⟩)

theorem execBset_cases (h : execBset s = o) :
    (s.builder.state = .idle ∧ o = .next (s.raised .noBuilder)) ∨
    (s.builder.state = .consumed ∧ o = .next (s.raised .alreadyBuilt)) ∨
    (s.builder.state = .opened ∧
      ((¬ (0 ≤ s.indexArg ∧ s.indexArg < (s.builder.size / 8 : Nat)) ∧
         o = .next (s.raised .indexOutOfRange)) ∨
       (0 ≤ s.indexArg ∧ s.indexArg < (s.builder.size / 8 : Nat) ∧
         ((¬ s.valueArg ≤ 0xFF ∧ o = .next (s.raised .valueOutOfRange)) ∨
          (s.valueArg ≤ 0xFF ∧ o = .next { s with
            builder := { s.builder with
              bytes := s.builder.bytes.set s.indexArg.toNat (s.arg1.extractLsb' 0 8) },
            err := none }))))) := by
  obtain h1 | h1 | ⟨h1, h⟩ := needOpen_cases h
  · exact .inl h1
  · exact .inr (.inl h1)
  · obtain h2 | ⟨h2, h3, h⟩ := needIndex_cases h
    · exact .inr (.inr ⟨h1, .inl h2⟩)
    · obtain ⟨h4, h5⟩ | ⟨h4, h⟩ := check_cases h
      · exact .inr (.inr ⟨h1, .inr ⟨h2, h3, .inl ⟨of_decide_eq_false h4, h5⟩⟩⟩)
      · exact .inr (.inr ⟨h1, .inr ⟨h2, h3, .inr ⟨of_decide_eq_true h4, h.symm⟩⟩⟩)

theorem execBbuild_cases {d : VReg} (h : execBbuild d s = o) :
    (s.builder.state = .idle ∧ o = .next (s.raised .noBuilder)) ∨
    (s.builder.state = .consumed ∧ o = .next (s.raised .alreadyBuilt)) ∨
    (s.builder.state = .opened ∧
      o = .next { s.setVreg d (pack s.builder.size s.builder.bytes) with
        builder := { s.builder with state := .consumed }, err := none }) := by
  obtain h1 | h1 | ⟨h1, h⟩ := needOpen_cases h
  · exact .inl h1
  · exact .inr (.inl h1)
  · exact .inr (.inr ⟨h1, h.symm⟩)

theorem execVrdw_cases {a : VReg} (h : execVrdw a s = o) :
    (s.vreg a = none ∧ o = .next (s.raised .unwrittenRegister)) ∨
    ∃ v, s.vreg a = some v ∧
      ((¬ (0 ≤ s.indexArg ∧ s.indexArg < (v.size / 32 : Nat)) ∧
         o = .next (s.raised .indexOutOfRange)) ∨
       (0 ≤ s.indexArg ∧ s.indexArg < (v.size / 32 : Nat) ∧
         o = .next { s with result := v.word s.indexArg.toNat, err := none })) := by
  obtain h1 | ⟨v, h1, h⟩ := needVec_cases h
  · exact .inl h1
  · obtain h2 | ⟨h2, h3, h⟩ := needIndex_cases h
    · exact .inr ⟨v, h1, .inl h2⟩
    · exact .inr ⟨v, h1, .inr ⟨h2, h3, h.symm⟩⟩

theorem execNop_eq (s : State) : execNop s = .next { s with err := none } := rfl

end Sys2Proof.Machine
end

