-- ==== Sys2Proof/Safety.lean ====
section
/-! DEFINITION. What every state a run reaches satisfies (spec/10_state.md R14, R22, R29, R33), which
host events the block performs (spec/20_memory.md R34 to R38), and which part of a state no host can
observe (spec/10_state.md R31). -/

namespace Sys2Proof.Machine

/-- R14, R33: a vector has 1 to `MAX_WORDS` words. -/
def Vec.wf (c : Config) (v : Vec) : Bool := decide (0 < v.nw) && decide (v.nw ≤ c.maxWords)

/-- R29, R33: an idle builder has size 0; any other has a positive multiple of 32 of at most
`MAX_BITS` bits, and `size / 8` bytes. -/
def Builder.wf (c : Config) (b : Builder) : Bool :=
  match b.state with
  | .idle => decide (b.size = 0)
  | .opened | .consumed =>
    decide (0 < b.size) && decide (b.size % 32 = 0) && decide (b.size ≤ c.maxBits)
      && decide (b.bytes.length = b.size / 8)

/-- The invariant of the block: legal parameters (R6), legal vectors (R14) and builder (R29), and a
nonzero `ERR` only with `ANYERR` set (R22). -/
structure State.Inv (s : State) : Prop where
  config  : s.config.wf = true
  vectors : ∀ r v, s.vreg r = some v → v.wf s.config = true
  builder : s.builder.wf s.config = true
  sticky  : s.err ≠ none → s.anyErr = true

/-- R38: the registers a host may write. -/
def Reg.writable : Reg → Bool
  | .cmd | .arg0 | .arg1 => true
  | .result | .status | .maxwords | .bldsize | .vrvalid => false

/-- A host event the block performs: a reset, or an aligned 32-bit access to a register of the window
that is not a write to a read-only register (R35 to R38). -/
def HostEvent.accepted (c : Config) : HostEvent → Bool
  | .reset => true
  | .read addr width =>
    match busTarget c addr width with
    | .ok _    => true
    | .error _ => false
  | .write addr width _ =>
    match busTarget c addr width with
    | .ok r    => r.writable
    | .error _ => false

/-- A safe state: every pending event is one the block performs. -/
def State.Safe (s : State) : Prop := ∀ e ∈ s.host, e.accepted s.config = true

/-- Two states that differ at most in the builder's bytes, and not even there while the builder is
open: all that any host can observe, now or later, is the same (R31, I2). -/
def State.SameVisible (s t : State) : Prop :=
  ∃ bytes, t = { s with builder := { s.builder with bytes := bytes } } ∧
    (s.builder.state = .opened → bytes = s.builder.bytes)

end Sys2Proof.Machine
end

