-- ==== Sys2Proof/Laws/Step.lean ====
section
/-! SUPPORT. What one step can do, once: the block is idle, or it performs the oldest event. -/

namespace Sys2Proof.Machine

variable {s t : State}

theorem step_nil (h : s.host = []) : step s = .next s := by simp [step, h]

theorem step_cons {e : HostEvent} {es : List HostEvent} (h : s.host = e :: es) :
    step s = serve e { s with host := es } := by simp [step, h]

/-- The ways a host event is performed. The command run is `exec` on the state that holds the written
word; an illegal word raises `IllegalCommand`. -/
theorem serve_cases {e : HostEvent} (h : serve e s = .next t) :
    (e = .reset ∧ t = { State.resetWith s.config with host := s.host }) ∨
    (∃ addr width r, e = .read addr width ∧ busTarget s.config addr width = .ok r ∧
      t = { s with readData := some (s.readReg r) }) ∨
    (∃ addr width x, e = .write addr width x ∧
      ((busTarget s.config addr width = .ok .arg0 ∧ t = { s with arg0 := x }) ∨
       (busTarget s.config addr width = .ok .arg1 ∧ t = { s with arg1 := x }) ∨
       (busTarget s.config addr width = .ok .cmd ∧
         ((∃ i, decode x = .ok i ∧ exec i { s with cmd := x } = .next t) ∨
          (∃ err, decode x = .error err ∧ t = { s with cmd := x }.raised .illegalCommand))))) := by
  match e with
  | .reset =>
    simp only [serve, Host.Outcome.next.injEq] at h
    exact .inl ⟨rfl, h.symm⟩
  | .read addr width =>
    simp only [serve] at h
    split at h
    · simp at h
    · simp only [Host.Outcome.next.injEq] at h
      exact .inr (.inl ⟨addr, width, _, rfl, ‹_›, h.symm⟩)
  | .write addr width x =>
    simp only [serve] at h
    split at h
    · simp at h
    · next r hr =>
      refine .inr (.inr ⟨addr, width, x, rfl, ?_⟩)
      cases r <;> simp only [writeReg, Host.Outcome.next.injEq, reduceCtorEq] at h
      · refine .inr (.inr ⟨hr, ?_⟩)
        unfold runCommand at h
        split at h
        · exact .inl ⟨_, ‹_›, h⟩
        · simp only [raise_eq, Host.Outcome.next.injEq] at h
          exact .inr ⟨_, ‹_›, h.symm⟩
      · exact .inl ⟨hr, h.symm⟩
      · exact .inr (.inl ⟨hr, h.symm⟩)

/-- A step that answers a next state is idle or serves the oldest event. -/
theorem step_cases (h : step s = .next t) :
    (s.host = [] ∧ t = s) ∨ ∃ e es, s.host = e :: es ∧ serve e { s with host := es } = .next t := by
  cases hh : s.host with
  | nil => rw [step_nil hh, Host.Outcome.next.injEq] at h; exact .inl ⟨rfl, h.symm⟩
  | cons e es => exact .inr ⟨e, es, rfl, step_cons hh ▸ h⟩

/-- A command written to `CMD` and legal runs as `exec`. -/
theorem runCommand_ok {x : Word} {i : Instr} (h : decode x = .ok i) (s : State) :
    runCommand x s = exec i { s with cmd := x } := by simp [runCommand, h]

theorem runCommand_error {x : Word} {err : DecodeError} (h : decode x = .error err) (s : State) :
    runCommand x s = .next ({ s with cmd := x }.raised .illegalCommand) := by
  simp [runCommand, h, raise_eq]

end Sys2Proof.Machine
end

