-- ==== Sys2Proof/Machine/Datapath.lean ====
section
/-! DEFINITION. The word-level funnel-shift datapath of spec/41_extract.md R77. The meanings use the
normative bit-level functions (R75, R76; R78); that the two agree is an obligation. -/

namespace Sys2Proof.Machine

/-- R77 `Wz(k)`: word `k` of `V` inside `[0, nw)`, else 0. -/
def wordZ (v : Vec) (k : Int) : Word :=
  if 0 ≤ k ∧ k < v.nw then v.word k.toNat else 0

/-- R77 `Ww(k)`: word `floorMod(k, nw)` of `V`. -/
def wordW (v : Vec) (k : Int) : Word := v.word (floorMod k v.nw).toNat

/-- R77: output word `j`, from the two adjacent words of the source `W`. The aligned case is written
apart, since a shift by 32 is no shift of R7 (I5). -/
def funnelWord (W : Int → Word) (start : Int) (j : Nat) : Word :=
  let q := floorDiv start 32
  let r := (floorMod start 32).toNat
  if r = 0 then W (q + j) else (W (q + j) >>> r) ||| (W (q + j + 1) <<< (32 - r))

/-- R77: the window of `size` bits assembled word by word from the source `W`. -/
def funnel (W : Int → Word) (start : Int) (size : Nat) : Vec :=
  ⟨(List.range (size / 32)).map (funnelWord W start)⟩

end Sys2Proof.Machine
end

