-- ==== Sys2Proof/Laws/Vectors.lean ====
section
/-! SUPPORT. One lemma for each pure function: its size and its words or bits. A vector is determined
by its size and its bits. -/

namespace Sys2Proof.Machine

/-! ## Integers -/

theorem int32_eq_toInt (w : Word) : int32 w = w.toInt := by
  have := w.isLt
  simp only [int32, BitVec.toInt_eq_msb_cond]
  split <;> simp

/-- The mathematical modulo of R8 is `Int.emod` for a positive divisor. -/
theorem floorMod_eq_emod (a : Int) {m : Int} (h : 0 < m) : floorMod a m = a % m := by
  rw [floorMod, floorDiv, Int.fdiv_eq_ediv_of_nonneg _ h.le, Int.emod_def]

theorem floorDiv_eq_ediv (a : Int) {m : Int} (h : 0 < m) : floorDiv a m = a / m := by
  rw [floorDiv, Int.fdiv_eq_ediv_of_nonneg _ h.le]

theorem sizeOK_iff (n : Int) : sizeOK n = true ↔ 0 < n ∧ n % 32 = 0 := by
  simp [sizeOK, floorMod_eq_emod]

/-! ## Words and bits -/

@[simp] theorem getLsbD_wordOfBits (f : Nat → Bool) (t : Nat) :
    (wordOfBits f).getLsbD t = (decide (t < 32) && f t) := by
  rw [wordOfBits, BitVec.getLsbD_ofFnLE]
  split <;> simp_all

theorem Vec.size_eq (v : Vec) : v.size = 32 * v.nw := rfl

@[simp] theorem Vec.size_mod (v : Vec) : v.size % 32 = 0 := by simp [Vec.size]

/-- A vector is its words. -/
theorem Vec.ext_word {v w : Vec} (hn : v.nw = w.nw) (h : ∀ k < v.nw, v.word k = w.word k) : v = w := by
  obtain ⟨vs⟩ := v
  obtain ⟨ws⟩ := w
  simp only [Vec.nw, Vec.word] at hn h
  congr 1
  refine List.ext_getElem hn fun k hk hk' => ?_
  simpa [List.getD_eq_getElem?_getD, hk, hk'] using h k hk

/-- A vector is its size and its bits. -/
theorem Vec.ext_bit {v w : Vec} (hs : v.size = w.size) (h : ∀ i < v.size, v.bit i = w.bit i) :
    v = w := by
  have hn : v.nw = w.nw := by simp only [Vec.size] at hs; omega
  refine Vec.ext_word hn fun k hk => BitVec.eq_of_getLsbD_eq fun t ht => ?_
  have hi := h (32 * k + t) (by rw [Vec.size]; omega)
  have h1 : (32 * k + t) / 32 = k := by omega
  have h2 : (32 * k + t) % 32 = t := by omega
  simpa [Vec.bit, h1, h2] using hi

/-- The bits of a vector given word by word. -/
theorem Vec.word_mk_map_range (f : Nat → Word) {n k : Nat} (h : k < n) :
    Vec.word ⟨(List.range n).map f⟩ k = f k := by
  simp [Vec.word, List.getD_eq_getElem?_getD, h]

@[simp] theorem nw_mkvec (n : Nat) (f : Nat → Bool) : (mkvec n f).nw = n / 32 := by
  simp [mkvec, Vec.nw]

theorem size_mkvec {n : Nat} (h : n % 32 = 0) (f : Nat → Bool) : (mkvec n f).size = n := by
  rw [Vec.size, nw_mkvec]; omega

theorem bit_mkvec {n : Nat} (hn : n % 32 = 0) (f : Nat → Bool) {i : Nat} (h : i < n) :
    (mkvec n f).bit i = f i := by
  have hk : i / 32 < n / 32 := by omega
  have hm : i % 32 < 32 := Nat.mod_lt _ (by decide)
  rw [Vec.bit, mkvec, Vec.word_mk_map_range _ hk, getLsbD_wordOfBits]
  simp [hm, Nat.div_add_mod]

@[simp] theorem nw_fill (n : Nat) (b : Bool) : (fill n b).nw = n / 32 := by simp [fill, Vec.nw]

theorem word_fill {n : Nat} (b : Bool) {k : Nat} (h : k < n / 32) :
    (fill n b).word k = if b then 0xFFFFFFFF else 0x00000000 := by
  rw [Vec.word, fill, List.getD_eq_getElem?_getD, List.getElem?_replicate_of_lt h]; rfl

@[simp] theorem nw_vnot (a : Vec) : (vnot a).nw = a.nw := by simp [vnot, Vec.nw]

theorem word_vnot (a : Vec) {k : Nat} (h : k < a.nw) : (vnot a).word k = ~~~ a.word k := by
  simp only [Vec.nw] at h
  simp [Vec.word, vnot, List.getD_eq_getElem?_getD, h]

section binary
variable {a b : Vec} (h : a.nw = b.nw)
include h

theorem nw_vand : (vand a b).nw = a.nw := by simp_all [vand, Vec.nw]
theorem nw_vor : (vor a b).nw = a.nw := by simp_all [vor, Vec.nw]

theorem word_vand {k : Nat} (hk : k < a.nw) : (vand a b).word k = a.word k &&& b.word k := by
  have hb : k < b.nw := h ▸ hk
  simp only [Vec.nw] at hk hb
  simp [Vec.word, vand, List.getD_eq_getElem?_getD, hk, hb]

theorem word_vor {k : Nat} (hk : k < a.nw) : (vor a b).word k = a.word k ||| b.word k := by
  have hb : k < b.nw := h ▸ hk
  simp only [Vec.nw] at hk hb
  simp [Vec.word, vor, List.getD_eq_getElem?_getD, hk, hb]

end binary

@[simp] theorem nw_extractZ (v : Vec) (start : Int) (n : Nat) : (extractZ v start n).nw = n / 32 :=
  nw_mkvec _ _

@[simp] theorem nw_extractW (v : Vec) (start : Int) (n : Nat) : (extractW v start n).nw = n / 32 :=
  nw_mkvec _ _

@[simp] theorem nw_funnel (W : Int → Word) (start : Int) (n : Nat) :
    (funnel W start n).nw = n / 32 := by simp [funnel, Vec.nw]

theorem word_funnel (W : Int → Word) (start : Int) {n k : Nat} (h : k < n / 32) :
    (funnel W start n).word k = funnelWord W start k := Vec.word_mk_map_range _ h

@[simp] theorem nw_pack (n : Nat) (bytes : List Byte) : (pack n bytes).nw = n / 32 := by
  simp [pack, Vec.nw]

theorem word_pack {n : Nat} (bytes : List Byte) {k : Nat} (h : k < n / 32) :
    (pack n bytes).word k = byteAsWord bytes (4 * k) ||| byteAsWord bytes (4 * k + 1) <<< 8
      ||| byteAsWord bytes (4 * k + 2) <<< 16 ||| byteAsWord bytes (4 * k + 3) <<< 24 :=
  Vec.word_mk_map_range _ h

@[simp] theorem length_render (v : Vec) : (render v).length = v.size := by simp [render]

end Sys2Proof.Machine
end

