-- ==== Sys2Proof/Machine/Assembler.lean ====
section
/-! DEFINITION. The assembler syntax and the pseudo-instructions of spec/30_encoding.md R60 and R61:
what each statement of a host program means as host events. The block's step does not read this file. -/

namespace Sys2Proof.Machine

/-- What a statement expands to (R60): a command, or one of the two host primitives. -/
inductive Prim where
  /-- One `MemWrite(BASE + 0x00, 4, word)` of the encoded word. -/
  | cmd (i : Instr)
  /-- `WR <reg>, <imm>`: `MemWrite(BASE + off(reg), 4, u32(imm))`. -/
  | wr (r : Reg) (imm : Int)
  /-- `RD <reg>`: `MemRead(BASE + off(reg), 4)`. -/
  | rd (r : Reg)
deriving DecidableEq, Repr

/-- A statement: a command or primitive (R60), or a pseudo-instruction (R61). -/
inductive Stmt where
  | prim (p : Prim)
  | fill (d : VReg) (size bit : Int)
  | xz (d a : VReg) (start size : Int)
  | xw (d a : VReg) (start size : Int)
  | builder (size : Int)
  | setbyte (index value : Int)
  | size (a : VReg)
  | eq (a b : VReg)
  | rdw (a : VReg) (k : Int)
  /-- The words are listed most significant first; the list may be empty (DESIGN CHOICE, log entry
  20: R61 does not say). -/
  | loadvec (d : VReg) (words : List Word)
  | check
deriving DecidableEq, Repr

/-- The host event of a primitive, for a block at `BASE` (R60). -/
def Prim.event (c : Config) : Prim → HostEvent
  | .cmd i    => cmdWrite c (encode i)
  | .wr r imm => .write (c.base + r.offset) 4 (u32 imm)
  | .rd r     => .read (c.base + r.offset) 4

/-- `SETBYTE index, value` (R61). -/
def setbytePrims (index value : Int) : List Prim := [.wr .arg0 index, .wr .arg1 value, .cmd .bset]

/-- The `SETBYTE`s of `LOADVEC` (R61), for words listed least significant first: byte `4k+j` is
`(w_k >> 8j) & 0xFF`. -/
def loadBytesPrims (ws : List Word) : List Prim :=
  (List.range (4 * ws.length)).flatMap fun m : Nat =>
    setbytePrims m ((ws.getD (m / 4) 0 >>> (8 * (m % 4)) &&& 0xFF).toNat)

/-- The expansions of R61; that of `LOADVEC` is taken at `n = 0` as well (DESIGN CHOICE, log entry 20). -/
def Stmt.expand : Stmt → List Prim
  | .prim p          => [p]
  | .fill d n b      => [.wr .arg0 n, .wr .arg1 b, .cmd (.vfill d)]
  | .xz d a start n  => [.wr .arg0 start, .wr .arg1 n, .cmd (.vxz d a)]
  | .xw d a start n  => [.wr .arg0 start, .wr .arg1 n, .cmd (.vxw d a)]
  | .builder n       => [.wr .arg0 n, .cmd .bnew]
  | .setbyte i v     => setbytePrims i v
  | .size a          => [.cmd (.vsize a), .rd .result]
  | .eq a b          => [.cmd (.veq a b), .rd .result]
  | .rdw a k         => [.wr .arg0 k, .cmd (.vrdw a), .rd .result]
  | .loadvec d words =>
    [.wr .arg0 (32 * words.length), .cmd .bnew] ++ loadBytesPrims words.reverse ++ [.cmd (.bbuild d)]
  | .check           => [.rd .status]

/-- The host events of a statement. -/
def Stmt.events (c : Config) (t : Stmt) : List HostEvent := t.expand.map (Prim.event c)

/-! ## Text -/

/-- `v0` to `v15` (R60). -/
def vregText (r : VReg) : String := "v" ++ toString r.val

/-- The mnemonic of a command (R52). -/
def mnemonic : Instr → String
  | .nop        => "NOP"
  | .vfill _    => "VFILL"
  | .vsize _    => "VSIZE"
  | .vnot _ _   => "VNOT"
  | .vand _ _ _ => "VAND"
  | .vor _ _ _  => "VOR"
  | .veq _ _    => "VEQ"
  | .vxz _ _    => "VXZ"
  | .vxw _ _    => "VXW"
  | .bnew       => "BNEW"
  | .bset       => "BSET"
  | .bbuild _   => "BBUILD"
  | .vrdw _     => "VRDW"

/-- The used register fields of a command, in the order VD, VA, VB (R60). -/
def usedRegs : Instr → List VReg
  | .nop | .bnew | .bset => []
  | .vfill d | .bbuild d => [d]
  | .vsize a | .vrdw a   => [a]
  | .vnot d a | .vxz d a | .vxw d a => [d, a]
  | .veq a b             => [a, b]
  | .vand d a b | .vor d a b => [d, a, b]

/-- A command in assembler syntax (R60): its mnemonic followed by its used register fields. -/
def instrText (i : Instr) : String :=
  if usedRegs i = [] then mnemonic i
  else mnemonic i ++ " " ++ ", ".intercalate ((usedRegs i).map vregText)

/-- The value of a digit, upper or lower case (DESIGN CHOICE, log entry 16). -/
def digitValue (c : Char) : Nat :=
  if '0' ≤ c ∧ c ≤ '9' then c.toNat - '0'.toNat
  else if 'a' ≤ c ∧ c ≤ 'f' then c.toNat - 'a'.toNat + 10
  else if 'A' ≤ c ∧ c ≤ 'F' then c.toNat - 'A'.toNat + 10
  else 16

/-- A nonempty digit string in a base. -/
def parseDigits (base : Nat) (cs : List Char) : Option Nat :=
  if cs ≠ [] ∧ cs.all (fun c => digitValue c < base) then
    some (cs.foldl (fun acc c => acc * base + digitValue c) 0)
  else none

/-- An immediate (R60): decimal with an optional `-`, or `0x` hexadecimal. -/
def parseImm : List Char → Option Int
  | '0' :: 'x' :: cs => (parseDigits 16 cs).map Int.ofNat
  | '-' :: cs        => (parseDigits 10 cs).map fun n => -(n : Int)
  | cs               => (parseDigits 10 cs).map Int.ofNat

/-- A vector register name, exactly `v0` to `v15` (R60). -/
def parseVReg (t : List Char) : Option VReg := (List.finRange 16).find? fun r => (vregText r).toList == t

/-- A register name of R34. -/
def parseReg (t : List Char) : Option Reg :=
  match String.ofList t with
  | "CMD"      => some .cmd
  | "ARG0"     => some .arg0
  | "ARG1"     => some .arg1
  | "RESULT"   => some .result
  | "STATUS"   => some .status
  | "MAXWORDS" => some .maxwords
  | "BLDSIZE"  => some .bldsize
  | "VRVALID"  => some .vrvalid
  | _          => none

/-- A statement from its mnemonic and its operands (R60, R61), letter for letter (DESIGN CHOICE, log
entry 16). `LOADVEC` with no words is accepted (DESIGN CHOICE, log entry 20). -/
def parseStmt (name : String) (args : List (List Char)) : Option Stmt :=
  let com (i : Instr) : Option Stmt := some (.prim (.cmd i))
  match name, args with
  | "NOP", []           => com .nop
  | "VFILL", [d]        => do com (.vfill (← parseVReg d))
  | "VSIZE", [a]        => do com (.vsize (← parseVReg a))
  | "VNOT", [d, a]      => do com (.vnot (← parseVReg d) (← parseVReg a))
  | "VAND", [d, a, b]   => do com (.vand (← parseVReg d) (← parseVReg a) (← parseVReg b))
  | "VOR", [d, a, b]    => do com (.vor (← parseVReg d) (← parseVReg a) (← parseVReg b))
  | "VEQ", [a, b]       => do com (.veq (← parseVReg a) (← parseVReg b))
  | "VXZ", [d, a]       => do com (.vxz (← parseVReg d) (← parseVReg a))
  | "VXW", [d, a]       => do com (.vxw (← parseVReg d) (← parseVReg a))
  | "BNEW", []          => com .bnew
  | "BSET", []          => com .bset
  | "BBUILD", [d]       => do com (.bbuild (← parseVReg d))
  | "VRDW", [a]         => do com (.vrdw (← parseVReg a))
  | "WR", [r, x]        => do some (.prim (.wr (← parseReg r) (← parseImm x)))
  | "RD", [r]           => do some (.prim (.rd (← parseReg r)))
  | "FILL", [d, n, b]   => do some (.fill (← parseVReg d) (← parseImm n) (← parseImm b))
  | "XZ", [d, a, t, n]  => do some (.xz (← parseVReg d) (← parseVReg a) (← parseImm t) (← parseImm n))
  | "XW", [d, a, t, n]  => do some (.xw (← parseVReg d) (← parseVReg a) (← parseImm t) (← parseImm n))
  | "BUILDER", [n]      => do some (.builder (← parseImm n))
  | "SETBYTE", [i, v]   => do some (.setbyte (← parseImm i) (← parseImm v))
  | "SIZE", [a]         => do some (.size (← parseVReg a))
  | "EQ", [a, b]        => do some (.eq (← parseVReg a) (← parseVReg b))
  | "RDW", [a, k]       => do some (.rdw (← parseVReg a) (← parseImm k))
  | "LOADVEC", d :: ws  => do some (.loadvec (← parseVReg d) ((← ws.mapM parseImm).map u32))
  | "CHECK", []         => some .check
  | _, _                => none

/-- The text before a comment, which `--` starts (spec/95_test_vectors.md section 6). -/
def dropComment : List Char → List Char
  | '-' :: '-' :: _ => []
  | c :: cs         => c :: dropComment cs
  | []              => []

/-- The tokens of a statement; blanks and commas separate them (DESIGN CHOICE, log entry 16). -/
def tokens (cs : List Char) : List (List Char) :=
  (cs.splitOnP fun c => c == ' ' || c == ',' || c == '\t' || c == '\r').filter (· ≠ [])

/-- A host program: statements separated by `;` or line ends, each empty or well formed
(DESIGN CHOICE, log entry 16). -/
def parse (text : String) : Option (List Stmt) :=
  let lines := (text.toList.splitOnP (· == '\n')).map dropComment
  let stmts := (lines.flatMap (·.splitOnP (· == ';'))).map tokens
  (stmts.filter (· ≠ [])).mapM fun
    | m :: args => parseStmt (String.ofList m) args
    | []        => none

end Sys2Proof.Machine
end

