-- ==== Sys2Proof/Certificates/Slice0/Obligations.lean ====
section
/-! DEFINITION. The statements for the provers. Each docstring names the rule of spec/ it formalises.
The signed value of an argument is written `BitVec.toInt`, the library's own, not the model's `int32`. -/

open Sys2Proof Sys2Proof.Machine

/-! ## Reset, host events, steps -/

/-- R111. The reset event, and the state after power-on for every value of the parameters. -/
def Obligations.ResetLeavesTheResetValues : Prop :=
  ∀ t : State,
    ((∃ (s : State) (es : List HostEvent), s.host = .reset :: es ∧ step s = .next t) ∨ ∃ c, t = State.resetWith c) →
    (∀ r, t.vreg r = none) ∧ t.arg0 = 0 ∧ t.arg1 = 0 ∧ t.result = 0 ∧ t.cmd = 0 ∧
    t.err = none ∧ t.anyErr = false ∧ t.builder.state = .idle ∧ t.builder.size = 0 ∧
    t.readReg .status = 0 ∧ t.readReg .bldsize = 0 ∧ t.readReg .vrvalid = 0 ∧
    t.readReg .maxwords = BitVec.ofNat 32 t.config.maxWords

/-- R45, R46: the oldest pending event is a `CMD` write of a word that decodes to `i`: the step is
`exec i` on the state that holds the word in `CMD` and has the event taken from the queue. The model's
own queue carries the host's accesses (log entry 5). -/
def Obligations.StepRunsTheWrittenCommand : Prop :=
  ∀ (s : State) (x : Word) (i : Instr) (es : List HostEvent),
    s.host = .write s.config.base 4 x :: es → decode x = .ok i →
    step s = exec i { s with host := es, cmd := x }

/-- R92, R53 to R55. -/
def Obligations.IllegalWordsRaiseIllegalCommand : Prop :=
  ∀ (s : State) (x : Word) (es : List HostEvent),
    s.host = .write s.config.base 4 x :: es →
    (0x0D ≤ (x.extractLsb' 0 8).toNat ∨ x.extractLsb' 20 12 ≠ 0 ∨ (Cmd.ofWord x).unusedZero = false) →
    step s = .next { s with host := es, cmd := x, err := some .illegalCommand, anyErr := true }

/-- R122: a host that issues nothing leaves the block idle (log entry 14). -/
def Obligations.NoHostEventLeavesTheStateAsItIs : Prop :=
  ∀ s : State, s.host = [] → step s = .next s

/-- R34, R39: a read of each register of the window returns its value and changes nothing of the
block, so that a second read returns the same. `readData` is the model's own record of the word returned (log entry 6). -/
def Obligations.ReadsReturnTheRegister : Prop :=
  ∀ (s : State) (off : Nat) (w : Word) (es : List HostEvent),
    s.host = .read (s.config.base + off) 4 :: es →
    (off, w) ∈ [(0x00, s.cmd), (0x04, s.arg0), (0x08, s.arg1), (0x0C, s.result),
      (0x10, s.statusWord), (0x14, BitVec.ofNat 32 s.config.maxWords),
      (0x18, BitVec.ofNat 32 s.builder.size), (0x1C, s.vrvalidWord)] →
    step s = .next { s with host := es, readData := some w } ∧
    (∀ es', es = .read (s.config.base + off) 4 :: es' →
      Host.Core.run core 2 s = .next { s with host := es', readData := some w })

/-- R40: a write to `ARG0` or `ARG1` stores the word and does nothing else, once or twice. -/
def Obligations.ArgumentWritesOnlyStore : Prop :=
  ∀ (s : State) (x : Word) (es : List HostEvent),
    (s.host = .write (s.config.base + 0x04) 4 x :: es →
      step s = .next { s with host := es, arg0 := x }) ∧
    (s.host = .write (s.config.base + 0x08) 4 x :: es →
      step s = .next { s with host := es, arg1 := x }) ∧
    (∀ off, off = 0x04 ∨ off = 0x08 →
      s.host = .write (s.config.base + off) 4 x :: .write (s.config.base + off) 4 x :: es →
      Host.Core.run core 2 s = step { s with host := .write (s.config.base + off) 4 x :: es })

/-- R35, R36, R38: the accesses inside the window that are bus errors. They are refused, as R37 says a
model treats them. -/
def Obligations.BusErrorsAreRefused : Prop :=
  ∀ (s : State) (off width : Nat) (x : Word) (e : HostEvent) (es : List HostEvent),
    s.host = e :: es → off < 32 →
    ((width ≠ 4 ∨ off % 4 ≠ 0) →
      (e = .read (s.config.base + off) width ∨ e = .write (s.config.base + off) width x) →
      step s = .refused .busErrorWidth ∨ step s = .refused .busErrorMisaligned) ∧
    (off ∈ [0x0C, 0x10, 0x14, 0x18, 0x1C] → e = .write (s.config.base + off) 4 x →
      step s = .refused .busErrorReadOnly) ∧
    (off % 4 = 0 → e = .read (s.config.base + off) 4 → ∃ t, step s = .next t)

/-! ## The commands: encoding, errors in check order, and the state after success -/

/-- R91. -/
def Obligations.NopClearsErr : Prop :=
  encode .nop = 0x00000000 ∧ ∀ s : State, exec .nop s = .next { s with err := none }

/-- R65. -/
def Obligations.VfillFillsOrRaises : Prop :=
  ∀ (d : VReg) (s : State),
    (encode (.vfill d)).toNat = 0x01 + 0x100 * d.val ∧
    ((s.arg0.toInt ≤ 0 ∨ s.arg0.toInt % 32 ≠ 0) →
      exec (.vfill d) s = .next { s with err := some .invalidSize, anyErr := true }) ∧
    (0 < s.arg0.toInt → s.arg0.toInt % 32 = 0 → 32 * (s.config.maxWords : Int) < s.arg0.toInt →
      exec (.vfill d) s = .next { s with err := some .capacityExceeded, anyErr := true }) ∧
    (0 < s.arg0.toInt → s.arg0.toInt % 32 = 0 → s.arg0.toInt ≤ 32 * (s.config.maxWords : Int) →
      1 < s.arg1.toNat →
      exec (.vfill d) s = .next { s with err := some .valueOutOfRange, anyErr := true }) ∧
    (∀ b : Bool, 0 < s.arg0.toInt → s.arg0.toInt % 32 = 0 →
      s.arg0.toInt ≤ 32 * (s.config.maxWords : Int) → s.arg1 = (if b then 1 else 0) →
      exec (.vfill d) s =
        .next { s with vr := s.vr.set d (some (fill s.arg0.toInt.toNat b)), err := none })

/-- R66, with the sizes R14 allows in a state that meets the invariant. -/
def Obligations.VsizeReturnsTheSize : Prop :=
  ∀ (a : VReg) (s : State),
    (encode (.vsize a)).toNat = 0x02 + 0x1000 * a.val ∧
    (s.vreg a = none →
      exec (.vsize a) s = .next { s with err := some .unwrittenRegister, anyErr := true }) ∧
    (∀ v, s.vreg a = some v →
      exec (.vsize a) s = .next { s with result := BitVec.ofNat 32 v.size, err := none }) ∧
    (∀ v, s.Inv → s.vreg a = some v →
      0 < v.size ∧ v.size % 32 = 0 ∧ v.size ≤ 32 * s.config.maxWords)

/-- R67. -/
def Obligations.VnotComplements : Prop :=
  ∀ (d a : VReg) (s : State),
    (encode (.vnot d a)).toNat = 0x03 + 0x100 * d.val + 0x1000 * a.val ∧
    (s.vreg a = none →
      exec (.vnot d a) s = .next { s with err := some .unwrittenRegister, anyErr := true }) ∧
    (∀ v, s.vreg a = some v →
      exec (.vnot d a) s = .next { s with vr := s.vr.set d (some (vnot v)), err := none }) ∧
    (∀ v, (vnot v).size = v.size ∧ vnot (vnot v) = v)

/-- R68. -/
def Obligations.VandConjoins : Prop :=
  ∀ (d a b : VReg) (s : State),
    (encode (.vand d a b)).toNat = 0x04 + 0x100 * d.val + 0x1000 * a.val + 0x10000 * b.val ∧
    ((s.vreg a = none ∨ s.vreg b = none) →
      exec (.vand d a b) s = .next { s with err := some .unwrittenRegister, anyErr := true }) ∧
    (∀ v w, s.vreg a = some v → s.vreg b = some w → v.size ≠ w.size →
      exec (.vand d a b) s = .next { s with err := some .sizeMismatch, anyErr := true }) ∧
    (∀ v w, s.vreg a = some v → s.vreg b = some w → v.size = w.size →
      exec (.vand d a b) s = .next { s with vr := s.vr.set d (some (vand v w)), err := none }) ∧
    (∀ v, s.vreg a = some v →
      exec (.vand d a a) s = .next { s with vr := s.vr.set d (some v), err := none })

/-- R69. -/
def Obligations.VorDisjoins : Prop :=
  ∀ (d a b : VReg) (s : State),
    (encode (.vor d a b)).toNat = 0x05 + 0x100 * d.val + 0x1000 * a.val + 0x10000 * b.val ∧
    ((s.vreg a = none ∨ s.vreg b = none) →
      exec (.vor d a b) s = .next { s with err := some .unwrittenRegister, anyErr := true }) ∧
    (∀ v w, s.vreg a = some v → s.vreg b = some w → v.size ≠ w.size →
      exec (.vor d a b) s = .next { s with err := some .sizeMismatch, anyErr := true }) ∧
    (∀ v w, s.vreg a = some v → s.vreg b = some w → v.size = w.size →
      exec (.vor d a b) s = .next { s with vr := s.vr.set d (some (vor v w)), err := none }) ∧
    (∀ v, s.vreg a = some v →
      exec (.vor d a a) s = .next { s with vr := s.vr.set d (some v), err := none })

/-- R70, with the equality of R15: equal sizes and equal words. -/
def Obligations.VeqComparesSizeAndWords : Prop :=
  ∀ (a b : VReg) (s : State),
    (encode (.veq a b)).toNat = 0x06 + 0x1000 * a.val + 0x10000 * b.val ∧
    ((s.vreg a = none ∨ s.vreg b = none) →
      exec (.veq a b) s = .next { s with err := some .unwrittenRegister, anyErr := true }) ∧
    (∀ v w, s.vreg a = some v → s.vreg b = some w →
      (v.size = w.size ∧ ∀ k < v.nw, v.word k = w.word k) →
      exec (.veq a b) s = .next { s with result := 1, err := none }) ∧
    (∀ v w, s.vreg a = some v → s.vreg b = some w →
      ¬ (v.size = w.size ∧ ∀ k < v.nw, v.word k = w.word k) →
      exec (.veq a b) s = .next { s with result := 0, err := none })

/-- R79. -/
def Obligations.VxzExtractsZeroExtended : Prop :=
  ∀ (d a : VReg) (s : State),
    (encode (.vxz d a)).toNat = 0x07 + 0x100 * d.val + 0x1000 * a.val ∧
    (s.vreg a = none →
      exec (.vxz d a) s = .next { s with err := some .unwrittenRegister, anyErr := true }) ∧
    (∀ v, s.vreg a = some v → (s.arg1.toInt ≤ 0 ∨ s.arg1.toInt % 32 ≠ 0) →
      exec (.vxz d a) s = .next { s with err := some .invalidWindowSize, anyErr := true }) ∧
    (∀ v, s.vreg a = some v → 0 < s.arg1.toInt → s.arg1.toInt % 32 = 0 →
      32 * (s.config.maxWords : Int) < s.arg1.toInt →
      exec (.vxz d a) s = .next { s with err := some .capacityExceeded, anyErr := true }) ∧
    (∀ v, s.vreg a = some v → 0 < s.arg1.toInt → s.arg1.toInt % 32 = 0 →
      s.arg1.toInt ≤ 32 * (s.config.maxWords : Int) →
      exec (.vxz d a) s = .next { s with
        vr := s.vr.set d (some (extractZ v s.arg0.toInt s.arg1.toInt.toNat)), err := none })

/-- R80. -/
def Obligations.VxwExtractsWrapped : Prop :=
  ∀ (d a : VReg) (s : State),
    (encode (.vxw d a)).toNat = 0x08 + 0x100 * d.val + 0x1000 * a.val ∧
    (s.vreg a = none →
      exec (.vxw d a) s = .next { s with err := some .unwrittenRegister, anyErr := true }) ∧
    (∀ v, s.vreg a = some v → (s.arg1.toInt ≤ 0 ∨ s.arg1.toInt % 32 ≠ 0) →
      exec (.vxw d a) s = .next { s with err := some .invalidWindowSize, anyErr := true }) ∧
    (∀ v, s.vreg a = some v → 0 < s.arg1.toInt → s.arg1.toInt % 32 = 0 →
      32 * (s.config.maxWords : Int) < s.arg1.toInt →
      exec (.vxw d a) s = .next { s with err := some .capacityExceeded, anyErr := true }) ∧
    (∀ v, s.vreg a = some v → 0 < s.arg1.toInt → s.arg1.toInt % 32 = 0 →
      s.arg1.toInt ≤ 32 * (s.config.maxWords : Int) →
      exec (.vxw d a) s = .next { s with
        vr := s.vr.set d (some (extractW v s.arg0.toInt s.arg1.toInt.toNat)), err := none })

/-- R84. -/
def Obligations.BnewOpensAZeroedBuilder : Prop :=
  encode .bnew = 0x00000009 ∧
  ∀ s : State,
    ((s.arg0.toInt ≤ 0 ∨ s.arg0.toInt % 32 ≠ 0) →
      exec .bnew s = .next { s with err := some .invalidSize, anyErr := true }) ∧
    (0 < s.arg0.toInt → s.arg0.toInt % 32 = 0 → 32 * (s.config.maxWords : Int) < s.arg0.toInt →
      exec .bnew s = .next { s with err := some .capacityExceeded, anyErr := true }) ∧
    (0 < s.arg0.toInt → s.arg0.toInt % 32 = 0 → s.arg0.toInt ≤ 32 * (s.config.maxWords : Int) →
      exec .bnew s = .next { s with err := none, builder :=
        { state := .opened, size := s.arg0.toInt.toNat,
          bytes := List.replicate (s.arg0.toInt.toNat / 8) 0x00 } })

/-- R85. -/
def Obligations.BsetWritesOneByte : Prop :=
  encode .bset = 0x0000000A ∧
  ∀ s : State,
    (s.builder.state = .idle →
      exec .bset s = .next { s with err := some .noBuilder, anyErr := true }) ∧
    (s.builder.state = .consumed →
      exec .bset s = .next { s with err := some .alreadyBuilt, anyErr := true }) ∧
    (s.builder.state = .opened →
      (s.arg0.toInt < 0 ∨ ((s.builder.size / 8 : Nat) : Int) ≤ s.arg0.toInt) →
      exec .bset s = .next { s with err := some .indexOutOfRange, anyErr := true }) ∧
    (s.builder.state = .opened → 0 ≤ s.arg0.toInt →
      s.arg0.toInt < ((s.builder.size / 8 : Nat) : Int) → 0xFF < s.arg1.toNat →
      exec .bset s = .next { s with err := some .valueOutOfRange, anyErr := true }) ∧
    (s.builder.state = .opened → 0 ≤ s.arg0.toInt →
      s.arg0.toInt < ((s.builder.size / 8 : Nat) : Int) → s.arg1.toNat ≤ 0xFF →
      exec .bset s = .next { s with err := none, builder :=
        { s.builder with
          bytes := s.builder.bytes.set s.arg0.toInt.toNat (s.arg1.extractLsb' 0 8) } })

/-- R86. -/
def Obligations.BbuildPacksAndConsumes : Prop :=
  ∀ (d : VReg) (s : State),
    (encode (.bbuild d)).toNat = 0x0B + 0x100 * d.val ∧
    (s.builder.state = .idle →
      exec (.bbuild d) s = .next { s with err := some .noBuilder, anyErr := true }) ∧
    (s.builder.state = .consumed →
      exec (.bbuild d) s = .next { s with err := some .alreadyBuilt, anyErr := true }) ∧
    (s.builder.state = .opened →
      exec (.bbuild d) s = .next { s with
        vr := s.vr.set d (some (pack s.builder.size s.builder.bytes)), err := none,
        builder := { s.builder with state := .consumed } })

/-- R90. -/
def Obligations.VrdwReadsOneWord : Prop :=
  ∀ (a : VReg) (s : State),
    (encode (.vrdw a)).toNat = 0x0C + 0x1000 * a.val ∧
    (s.vreg a = none →
      exec (.vrdw a) s = .next { s with err := some .unwrittenRegister, anyErr := true }) ∧
    (∀ v, s.vreg a = some v → (s.arg0.toInt < 0 ∨ (v.nw : Int) ≤ s.arg0.toInt) →
      exec (.vrdw a) s = .next { s with err := some .indexOutOfRange, anyErr := true }) ∧
    (∀ v (k : Nat) (h : k < v.words.length), s.vreg a = some v → s.arg0.toInt = k →
      exec (.vrdw a) s = .next { s with result := v.words[k], err := none })

/-! ## Status and the read-only registers -/

/-- R94, in the fields of R22: the codes, the sticky bit, the builder state, the reserved bits. -/
def Obligations.StatusFieldsHoldTheCodes : Prop :=
  ∀ s : State,
    (∀ e n, (e, n) ∈ [(none, 0), (some ErrKind.invalidSize, 1), (some .invalidWindowSize, 2),
        (some .sizeMismatch, 3), (some .indexOutOfRange, 4), (some .alreadyBuilt, 5),
        (some .illegalCommand, 6), (some .unwrittenRegister, 7), (some .noBuilder, 8),
        (some .valueOutOfRange, 9), (some .capacityExceeded, 10)] →
      s.err = e → ((s.readReg .status).extractLsb' 0 4).toNat = n) ∧
    (s.readReg .status).getLsbD 4 = s.anyErr ∧
    (s.readReg .status).extractLsb' 5 3 = 0 ∧
    (∀ b n, (b, n) ∈ [(BState.idle, 0), (.opened, 1), (.consumed, 2)] →
      s.builder.state = b → ((s.readReg .status).extractLsb' 8 2).toNat = n) ∧
    (s.readReg .status).extractLsb' 10 22 = 0

/-- R25, R27, R28: what `MAXWORDS`, `BLDSIZE` and `VRVALID` read as, in every state that meets the
invariant, and after reset. -/
def Obligations.ReadOnlyRegistersMirrorTheState : Prop :=
  ∀ s : State,
    (∀ i, (s.readReg .vrvalid).getLsbD i = true ↔ ∃ r : VReg, r.val = i ∧ ∃ v, s.vreg r = some v) ∧
    (s.Inv → (s.readReg .maxwords).toNat = s.config.maxWords ∧
      (s.readReg .bldsize).toNat = s.builder.size ∧
      (s.builder.state = .idle → s.readReg .bldsize = 0)) ∧
    (∀ t, step s = .next t → t.readReg .maxwords = s.readReg .maxwords) ∧
    (∀ c, (State.resetWith c).readReg .vrvalid = 0 ∧ (State.resetWith c).readReg .bldsize = 0 ∧
      (State.resetWith c).readReg .maxwords = BitVec.ofNat 32 c.maxWords)

/-! ## The pure functions -/

/-- R63. -/
def Obligations.FillIsUniform : Prop :=
  (∀ n : Int, sizeOK n = true ↔ 0 < n ∧ n % 32 = 0) ∧
  ∀ (n : Nat) (b : Bool), sizeOK n = true →
    (fill n b).size = n ∧
    (∀ k < n / 32, (fill n b).word k = if b then 0xFFFFFFFF else 0x00000000) ∧
    (∀ i < n, (fill n b).bit i = b)

/-- R64, word by word and bit by bit. -/
def Obligations.BooleanUnitWorksBitByBit : Prop :=
  ∀ a b : Vec, a.size = b.size →
    ((vnot a).size = a.size ∧ (vand a b).size = a.size ∧ (vor a b).size = a.size) ∧
    (∀ k < a.nw, (vnot a).word k = ~~~ a.word k ∧ (vand a b).word k = a.word k &&& b.word k ∧
      (vor a b).word k = a.word k ||| b.word k) ∧
    (∀ i < a.size, (vnot a).bit i = !a.bit i ∧ (vand a b).bit i = (a.bit i && b.bit i) ∧
      (vor a b).bit i = (a.bit i || b.bit i))

/-- R71. -/
def Obligations.BooleanLawsHold : Prop :=
  ∀ a b c : Vec, a.size = b.size → b.size = c.size →
    vnot (vnot a) = a ∧
    vand a b = vand b a ∧ vand (vand a b) c = vand a (vand b c) ∧ vand a a = a ∧
    vor a b = vor b a ∧ vor (vor a b) c = vor a (vor b c) ∧ vor a a = a ∧
    vnot (vand a b) = vor (vnot a) (vnot b) ∧
    vand a (fill a.size false) = fill a.size false ∧
    vor a (fill a.size true) = fill a.size true

/-- R75, with the exact source index of R74. -/
def Obligations.ZeroExtractionBits : Prop :=
  ∀ (v : Vec) (start : Int) (size : Nat), sizeOK size = true →
    (extractZ v start size).size = size ∧
    (∀ i s : Nat, i < size → start + i = s → s < v.size → (extractZ v start size).bit i = v.bit s) ∧
    (∀ i : Nat, i < size → (start + i < 0 ∨ (v.size : Int) ≤ start + i) →
      (extractZ v start size).bit i = false)

/-- R76, with the exact source index of R74 and the modulo of R8. -/
def Obligations.WrappedExtractionBits : Prop :=
  ∀ (v : Vec) (start : Int) (size : Nat), sizeOK size = true → 0 < v.size →
    (extractW v start size).size = size ∧
    (∀ i s : Nat, i < size → s < v.size → (∃ q : Int, start + i = v.size * q + s) →
      (extractW v start size).bit i = v.bit s)

/-- R77: the word-level funnel shift computes both extractions. -/
def Obligations.DatapathComputesExtraction : Prop :=
  ∀ (v : Vec) (start : Int) (size : Nat), sizeOK size = true → 0 < v.size →
    extractZ v start size = funnel (wordZ v) start size ∧
    extractW v start size = funnel (wordW v) start size

/-- R81. -/
def Obligations.ExtractionsAgreeInRange : Prop :=
  ∀ (v : Vec) (start size : Nat), sizeOK size = true → start + size ≤ v.size →
    extractZ v start size = extractW v start size ∧
    extractZ v start size = mkvec size fun i => v.bit (start + i)

/-- R82, laws 1, 5 and 6. -/
def Obligations.ExtractionIdentityPeriodAndRange : Prop :=
  ∀ v : Vec, 0 < v.size →
    extractZ v 0 v.size = v ∧ extractW v 0 v.size = v ∧
    (∀ (start k : Int) (size : Nat), sizeOK size = true →
      extractW v (start + k * v.size) size = extractW v start size) ∧
    (∀ (start : Int) (size : Nat), sizeOK size = true →
      ((v.size : Int) ≤ start ∨ start + size ≤ 0) → extractZ v start size = fill size false)

/-- R82, laws 2 and 3: zero extraction of the vector's own size is a logical shift. The first clause
says what integer a vector is read as. -/
def Obligations.ZeroExtractionShifts : Prop :=
  ∀ v : Vec,
    v.toNat = ∑ i ∈ Finset.range v.size, (v.bit i).toNat * 2 ^ i ∧
    ∀ k : Nat,
      (extractZ v k v.size).toNat = v.toNat / 2 ^ k ∧
      (extractZ v (-k) v.size).toNat = (v.toNat * 2 ^ k) % 2 ^ v.size

/-- R82, law 4: wrapped extraction of the vector's own size is a rotation. -/
def Obligations.WrappedExtractionRotates : Prop :=
  ∀ (v : Vec) (k : Int) (r : Nat), r < v.size → (∃ q : Int, k = v.size * q + r) →
    (extractW v k v.size).toNat = v.toNat / 2 ^ r + (v.toNat % 2 ^ r) * 2 ^ (v.size - r)

/-- R82, law 7: wrapped extraction of a multiple of the vector's size tiles it. -/
def Obligations.WrappedExtractionTiles : Prop :=
  ∀ (v : Vec) (m : Nat), 0 < v.size →
    (extractW v 0 (m * v.size)).words = (List.replicate m v.words).flatten

/-- R87. -/
def Obligations.PackIsByteZeroLeastSignificant : Prop :=
  ∀ (n : Nat) (bytes : List Byte), sizeOK n = true → bytes.length = n / 8 →
    (pack n bytes).size = n ∧
    (∀ (k : Nat) (h : 4 * k + 3 < bytes.length),
      (pack n bytes).word k = bytes[4 * k + 3] ++ bytes[4 * k + 2] ++ bytes[4 * k + 1] ++ bytes[4 * k]) ∧
    (∀ (m t : Nat) (h : m < bytes.length), t < 8 →
      (pack n bytes).bit (8 * m + t) = bytes[m].getLsbD t)

/-- R88: BNEW then BBUILD writes the value VFILL writes with `ARG1 = 0`. -/
def Obligations.BuilderAndFillAgree : Prop :=
  (∀ n : Nat, sizeOK n = true → pack n (List.replicate (n / 8) 0x00) = fill n false) ∧
  ∀ (s : State) (d : VReg), 0 < s.arg0.toInt → s.arg0.toInt % 32 = 0 →
    s.arg0.toInt ≤ 32 * (s.config.maxWords : Int) →
    ∃ t u w, exec .bnew s = .next t ∧ exec (.bbuild d) t = .next u ∧
      exec (.vfill d) { s with arg1 := 0 } = .next w ∧
      u.vreg d = some (fill s.arg0.toInt.toNat false) ∧ w.vreg d = u.vreg d

/-- R16. -/
def Obligations.RenderShowsTheBitsMostSignificantFirst : Prop :=
  ∀ v : Vec,
    (render v).length = v.size ∧
    (∀ p < v.size, (render v)[p]? = some (if v.bit (v.size - 1 - p) then '1' else '0')) ∧
    (∀ w : Vec, render v = render w → v = w)

/-! ## Encoding -/

/-- Every command's word decodes to the command, also through its byte lanes. -/
def Obligations.DecodeUndoesEncode : Prop :=
  ∀ i : Instr, decode (encode i) = .ok i ∧ decodeTableWord 32 (encode i).toNat = some i

/-- Every legal word is the word of the command it decodes to: no bit of it is dropped. -/
def Obligations.EncodeUndoesDecode : Prop :=
  ∀ (x : Word) (i : Instr), decode x = .ok i → encode i = x

/-- R55, R53, R54: the words that decode are those with a defined opcode, zero reserved bits and zero
unused fields (the columns of R52); every other word is refused, by name of the first that is wrong. -/
def Obligations.LegalWordsAreTheWellFormedFields : Prop :=
  ∀ x : Word,
    ((∃ i, decode x = .ok i) ↔ (Cmd.ofWord x).wf = true) ∧
    ((Cmd.ofWord x).reservedZero = false → decode x = .error .reservedBits) ∧
    ((Cmd.ofWord x).reservedZero = true → (Cmd.ofWord x).opDefined = false →
      decode x = .error .reservedOpcode) ∧
    ((Cmd.ofWord x).reservedZero = true → (Cmd.ofWord x).opDefined = true →
      (Cmd.ofWord x).unusedZero = false → decode x = .error .unusedField)

/-- R52: no two rows match the same word. -/
def Obligations.NoWordMatchesTwoRows : Prop :=
  ∀ (x : Word) (m n : Fin opTable.length),
    opTable[m].matches x = true → opTable[n].matches x = true → m = n

/-- Words the spec writes out (R65, R66, R67, R68, R69, R70, R86, R90, and P1 of
`95_test_vectors.md`), each with its command; and words it calls illegal (R53, R92). -/
def Obligations.WrittenOutWordsDecode : Prop :=
  decode 0x00000000 = .ok .nop ∧ decode 0x00000201 = .ok (.vfill 2) ∧
  decode 0x00001002 = .ok (.vsize 1) ∧ decode 0x00001203 = .ok (.vnot 2 1) ∧
  decode 0x00021304 = .ok (.vand 3 1 2) ∧ decode 0x00021305 = .ok (.vor 3 1 2) ∧
  decode 0x00021006 = .ok (.veq 1 2) ∧ decode 0x00001207 = .ok (.vxz 2 1) ∧
  decode 0x00001208 = .ok (.vxw 2 1) ∧ decode 0x00000009 = .ok .bnew ∧
  decode 0x0000000A = .ok .bset ∧ decode 0x0000010B = .ok (.bbuild 1) ∧
  decode 0x0000100C = .ok (.vrdw 1) ∧ decode 0x0000000D = .error .reservedOpcode ∧
  decode 0x00003001 = .error .unusedField ∧ decode 0x00100004 = .error .reservedBits

/-! ## Whole-machine rules -/

/-- Every step, from any state that meets the invariant, keeps it (R6, R14, R22, R29, R33). -/
def Obligations.StepKeepsTheInvariant : Prop :=
  ∀ s t : State, s.Inv → step s = .next t → t.Inv

/-- The invariant holds after reset, for every legal value of the parameters. -/
def Obligations.ResetMeetsTheInvariant : Prop :=
  (∀ c : Config, c.wf = true → (State.resetWith c).Inv) ∧ State.reset.Inv

/-- R99: an error changes `STATUS.ERR` and `STATUS.ANYERR` and nothing else; and R45: a command that
does not raise leaves `ANYERR` as it was. -/
def Obligations.ErrorsArePrecise : Prop :=
  ∀ (i : Instr) (s t : State), exec i s = .next t →
    (∀ e, t.err = some e → t = { s with err := some e, anyErr := true }) ∧
    (t.err = none → t.anyErr = s.anyErr)

/-- R122, R97: every command ends, in every state, with a next state. -/
def Obligations.EveryCommandCompletes : Prop :=
  ∀ (i : Instr) (s : State), ∃ t, exec i s = .next t

/-- R95: a command raises an error only for a cause the table lists for it; only an illegal word
raises `IllegalCommand`. -/
def Obligations.ErrorsHaveTheListedCauses : Prop :=
  (∀ (i : Instr) (s t : State) (e : ErrKind), exec i s = .next t → t.err = some e →
    match e with
    | .invalidSize => ((∃ d, i = .vfill d) ∨ i = .bnew) ∧ (s.arg0.toInt ≤ 0 ∨ s.arg0.toInt % 32 ≠ 0)
    | .invalidWindowSize => (∃ d a, i = .vxz d a ∨ i = .vxw d a) ∧
        (s.arg1.toInt ≤ 0 ∨ s.arg1.toInt % 32 ≠ 0)
    | .sizeMismatch => ∃ d a b v w, (i = .vand d a b ∨ i = .vor d a b) ∧
        s.vreg a = some v ∧ s.vreg b = some w ∧ v.size ≠ w.size
    | .indexOutOfRange =>
        (i = .bset ∧ (s.arg0.toInt < 0 ∨ ((s.builder.size / 8 : Nat) : Int) ≤ s.arg0.toInt)) ∨
        ∃ a v, i = .vrdw a ∧ s.vreg a = some v ∧ (s.arg0.toInt < 0 ∨ (v.nw : Int) ≤ s.arg0.toInt)
    | .alreadyBuilt => (i = .bset ∨ ∃ d, i = .bbuild d) ∧ s.builder.state = .consumed
    | .illegalCommand => False
    | .unwrittenRegister => ∃ r, s.vreg r = none ∧
        (i = .vsize r ∨ i = .vrdw r ∨ (∃ d, i = .vnot d r ∨ i = .vxz d r ∨ i = .vxw d r) ∨
         (∃ q, i = .veq r q ∨ i = .veq q r) ∨
         ∃ d q, i = .vand d r q ∨ i = .vand d q r ∨ i = .vor d r q ∨ i = .vor d q r)
    | .noBuilder => (i = .bset ∨ ∃ d, i = .bbuild d) ∧ s.builder.state = .idle
    | .valueOutOfRange =>
        ((∃ d, i = .vfill d) ∧ 1 < s.arg1.toNat) ∨ (i = .bset ∧ 0xFF < s.arg1.toNat)
    | .capacityExceeded =>
        (((∃ d, i = .vfill d) ∨ i = .bnew) ∧ 0 < s.arg0.toInt ∧ s.arg0.toInt % 32 = 0 ∧
          32 * (s.config.maxWords : Int) < s.arg0.toInt) ∨
        ((∃ d a, i = .vxz d a ∨ i = .vxw d a) ∧ 0 < s.arg1.toInt ∧ s.arg1.toInt % 32 = 0 ∧
          32 * (s.config.maxWords : Int) < s.arg1.toInt)) ∧
  ∀ (s t : State) (x : Word) (es : List HostEvent), s.host = .write s.config.base 4 x :: es →
    step s = .next t → (t.err = some .illegalCommand ↔ ∃ err, decode x = .error err)

/-- R72, R17, R20, R21, R30: what a command leaves as it was. Only the destination of the seven
commands that have one changes; only BNEW, BSET and BBUILD change the builder; only VSIZE, VEQ and VRDW
write `RESULT`; none changes an argument, `CMD`, the parameters or what the host has pending. -/
def Obligations.CommandFrames : Prop :=
  ∀ (i : Instr) (s t : State), exec i s = .next t →
    t.config = s.config ∧ t.arg0 = s.arg0 ∧ t.arg1 = s.arg1 ∧ t.cmd = s.cmd ∧
    t.host = s.host ∧ t.readData = s.readData ∧
    (∀ r, i ≠ .vfill r → (∀ a, i ≠ .vnot r a ∧ i ≠ .vxz r a ∧ i ≠ .vxw r a) →
      (∀ a b, i ≠ .vand r a b ∧ i ≠ .vor r a b) → i ≠ .bbuild r → t.vreg r = s.vreg r) ∧
    (i ≠ .bnew → i ≠ .bset → (∀ d, i ≠ .bbuild d) → t.builder = s.builder) ∧
    ((∀ a, i ≠ .vsize a ∧ i ≠ .vrdw a) → (∀ a b, i ≠ .veq a b) → t.result = s.result)

/-- R93: only VSIZE, VEQ and VRDW write `RESULT`, and only when they succeed. -/
def Obligations.ResultChangesOnlyBySuccessfulReaders : Prop :=
  ∀ (i : Instr) (s t : State), exec i s = .next t → t.result ≠ s.result →
    t.err = none ∧ ((∃ a, i = .vsize a ∨ i = .vrdw a) ∨ ∃ a b, i = .veq a b)

/-- R18: a vector register changes only by reset, to `Invalid`, or as the destination of a successful
VFILL, VNOT, VAND, VOR, VXZ, VXW or BBUILD, to a valid value. -/
def Obligations.VectorRegistersChangeOnlyAsListed : Prop :=
  ∀ (s t : State) (r : VReg), step s = .next t → t.vreg r ≠ s.vreg r →
    (s.host.head? = some .reset ∧ t.vreg r = none) ∨
    ∃ addr width x i, s.host.head? = some (.write addr width x) ∧ decode x = .ok i ∧
      (i = .vfill r ∨ (∃ a, i = .vnot r a ∨ i = .vxz r a ∨ i = .vxw r a) ∨
        (∃ a b, i = .vand r a b ∨ i = .vor r a b) ∨ i = .bbuild r) ∧
      t.err = none ∧ ∃ v, t.vreg r = some v

/-- R114: in a run without a reset `ANYERR` stays set and valid registers stay valid; a reset clears
both. -/
def Obligations.OnlyResetClearsAnyErrAndRegisters : Prop :=
  (∀ (k : Nat) (s t : State), HostEvent.reset ∉ s.host → Host.Core.run core k s = .next t →
    (s.anyErr = true → t.anyErr = true) ∧
    ∀ r v, s.vreg r = some v → ∃ w, t.vreg r = some w) ∧
  ∀ (s : State) (es : List HostEvent), s.host = .reset :: es →
    ∃ t, step s = .next t ∧ t.anyErr = false ∧ ∀ r, t.vreg r = none

/-- R30: once consumed, the builder changes only by BNEW or reset. -/
def Obligations.ConsumedBuilderIsFinal : Prop :=
  ∀ s : State, s.builder.state = .consumed →
    (∀ t, step s = .next t → t.builder = s.builder ∨ s.host.head? = some .reset ∨
      ∃ addr width x, s.host.head? = some (.write addr width x) ∧ decode x = .ok .bnew) ∧
    (exec .bset s = .next { s with err := some .alreadyBuilt, anyErr := true }) ∧
    ∀ d, exec (.bbuild d) s = .next { s with err := some .alreadyBuilt, anyErr := true }

/-- R83: the transitions of the builder's state, and no other; `STATUS.BSTATE` mirrors it. -/
def Obligations.BuilderLifeCycle : Prop :=
  (∀ (i : Instr) (s t : State), exec i s = .next t →
    (t.err ≠ none → t.builder.state = s.builder.state) ∧
    (t.err = none →
      (i = .bnew → t.builder.state = .opened) ∧
      (i = .bset → s.builder.state = .opened ∧ t.builder.state = .opened) ∧
      (∀ d, i = .bbuild d → s.builder.state = .opened ∧ t.builder.state = .consumed) ∧
      (i ≠ .bnew → i ≠ .bset → (∀ d, i ≠ .bbuild d) → t.builder.state = s.builder.state))) ∧
  (∀ (d : VReg) (s : State), s.builder.state = .opened →
    ∃ t, exec (.bbuild d) s = .next t ∧ t.err = none) ∧
  (∀ (s : State) (es : List HostEvent), s.host = .reset :: es →
    ∃ t, step s = .next t ∧ t.builder.state = .idle) ∧
  ∀ s : State, ((s.readReg .status).extractLsb' 8 2).toNat =
    match s.builder.state with
    | .idle => 0
    | .opened => 1
    | .consumed => 2

/-- R31, I2: two states that differ at most in the bytes of a builder that is not open give, over any
run, the same stop or states that again differ only so, with the same registers to read. -/
def Obligations.HiddenBytesAreNeverObserved : Prop :=
  ∀ (k : Nat) (s t : State), s.SameVisible t →
    match Host.Core.run core k s, Host.Core.run core k t with
    | .next s', .next t' => s'.SameVisible t' ∧ s'.vr = t'.vr ∧ s'.readData = t'.readData ∧
        ∀ r, s'.readReg r = t'.readReg r
    | .refused p, .refused q => p = q
    | _, _ => False

/-- A host that makes only accepted accesses (R34 to R38) is never stopped, over runs of any length. -/
def Obligations.SafeRunsNeverStop : Prop :=
  ∀ (k : Nat) (s : State), s.Safe → ∃ t, Host.Core.run core k s = .next t ∧ t.Safe

/-- R59: a destination that is also a source is read first and then replaced. -/
def Obligations.AliasedOperandsAreReadFirst : Prop :=
  ∀ (r : VReg) (s : State) (v : Vec), s.vreg r = some v →
    exec (.vand r r r) s = .next { s with err := none } ∧
    exec (.vor r r r) s = .next { s with err := none } ∧
    ∃ t, exec (.vnot r r) s = .next t ∧ t.vreg r = some (vnot v) ∧
      exec (.vnot r r) t = .next { s with err := none }

/-! ## The host's statements -/

/-- R61: the expansions of the pseudo-instructions of one command run that command on the arguments
they name; CHECK reads `STATUS`. -/
def Obligations.PseudoInstructionsRunTheirCommands : Prop :=
  ∀ (s : State) (d a b : VReg) (m n : Int) (es : List HostEvent),
    (s.host = (Stmt.fill d m n).events s.config ++ es → Host.Core.run core 3 s = exec (.vfill d)
      { s with host := es, arg0 := u32 m, arg1 := u32 n, cmd := encode (.vfill d) }) ∧
    (s.host = (Stmt.xz d a m n).events s.config ++ es → Host.Core.run core 3 s = exec (.vxz d a)
      { s with host := es, arg0 := u32 m, arg1 := u32 n, cmd := encode (.vxz d a) }) ∧
    (s.host = (Stmt.xw d a m n).events s.config ++ es → Host.Core.run core 3 s = exec (.vxw d a)
      { s with host := es, arg0 := u32 m, arg1 := u32 n, cmd := encode (.vxw d a) }) ∧
    (s.host = (Stmt.builder m).events s.config ++ es → Host.Core.run core 2 s = exec .bnew
      { s with host := es, arg0 := u32 m, cmd := encode .bnew }) ∧
    (s.host = (Stmt.setbyte m n).events s.config ++ es → Host.Core.run core 3 s = exec .bset
      { s with host := es, arg0 := u32 m, arg1 := u32 n, cmd := encode .bset }) ∧
    (s.host = (Stmt.size a).events s.config ++ es → ∃ t, exec (.vsize a)
      { s with host := .read (s.config.base + 0x0C) 4 :: es, cmd := encode (.vsize a) } = .next t ∧
      Host.Core.run core 2 s = .next { t with host := es, readData := some t.result }) ∧
    (s.host = (Stmt.eq a b).events s.config ++ es → ∃ t, exec (.veq a b)
      { s with host := .read (s.config.base + 0x0C) 4 :: es, cmd := encode (.veq a b) } = .next t ∧
      Host.Core.run core 2 s = .next { t with host := es, readData := some t.result }) ∧
    (s.host = (Stmt.rdw a m).events s.config ++ es → ∃ t, exec (.vrdw a)
      { s with host := .read (s.config.base + 0x0C) 4 :: es, arg0 := u32 m, cmd := encode (.vrdw a) } =
        .next t ∧
      Host.Core.run core 3 s = .next { t with host := es, readData := some t.result }) ∧
    (s.host = Stmt.check.events s.config ++ es →
      Host.Core.run core 1 s = .next { s with host := es, readData := some s.statusWord })

/-- R61, R41: the expansion of LOADVEC, run from any state with legal parameters, puts the listed words
into the register, the last listed as word 0, and raises no error. -/
def Obligations.LoadvecBuildsTheVector : Prop :=
  ∀ (s : State) (d : VReg) (words : List Word) (es : List HostEvent),
    s.config.wf = true → 0 < words.length → words.length ≤ s.config.maxWords →
    s.host = (Stmt.loadvec d words).events s.config ++ es →
    ∃ t, Host.Core.run core ((Stmt.loadvec d words).events s.config).length s = .next t ∧
      t.vreg d = some ⟨words.reverse⟩ ∧ (∀ r, r ≠ d → t.vreg r = s.vreg r) ∧
      t.err = none ∧ t.anyErr = s.anyErr ∧ t.result = s.result ∧ t.host = es ∧
      t.builder.state = .consumed ∧ t.builder.size = 32 * words.length

/-- R60: a command's mnemonic and its used registers, in the order VD, VA, VB, are read back as the
command, which issues one `CMD` write of its word; and the two host primitives issue their accesses. -/
def Obligations.AssemblerStatementsMeanTheirAccesses : Prop :=
  ∀ c : Config,
    (∀ i : Instr,
      parseStmt (mnemonic i) ((usedRegs i).map fun r => (vregText r).toList) = some (.prim (.cmd i)) ∧
      (Stmt.prim (.cmd i)).events c = [.write c.base 4 (encode i)]) ∧
    ∀ (r : Reg) (off : Nat), (r, off) ∈ [(.cmd, 0x00), (.arg0, 0x04), (.arg1, 0x08), (.result, 0x0C),
        (.status, 0x10), (.maxwords, 0x14), (.bldsize, 0x18), (.vrvalid, 0x1C)] →
      (∀ imm, (Stmt.prim (.wr r imm)).events c = [.write (c.base + off) 4 (BitVec.ofInt 32 imm)]) ∧
      (Stmt.prim (.rd r)).events c = [.read (c.base + off) 4]
end

