-- ==== Sys2Proof/Laws/Safety.lean ====
section
/-! SUPPORT. The checks of Safety.lean as propositions, and the invariant under the updates that do not
touch what it speaks of. -/

namespace Sys2Proof.Machine

theorem Config.wf_iff (c : Config) :
    c.wf = true ↔ 10 ≤ c.maxWords ∧ c.maxWords ≤ 2 ^ 26 - 1 ∧ c.base % 32 = 0 := by
  simp [Config.wf, and_assoc]

theorem Vec.wf_iff (c : Config) (v : Vec) : v.wf c = true ↔ 0 < v.nw ∧ v.nw ≤ c.maxWords := by
  simp [Vec.wf]

theorem Builder.wf_idle {c : Config} {b : Builder} (h : b.state = .idle) :
    b.wf c = true ↔ b.size = 0 := by simp [Builder.wf, h]

theorem Builder.wf_made {c : Config} {b : Builder} (h : b.state ≠ .idle) :
    b.wf c = true ↔ 0 < b.size ∧ b.size % 32 = 0 ∧ b.size ≤ 32 * c.maxWords ∧
      b.bytes.length = b.size / 8 := by
  cases hb : b.state
  · exact absurd hb h
  all_goals
    simp only [Builder.wf, hb, Bool.and_eq_true, decide_eq_true_eq, and_assoc]
    rw [Config.maxBits_eq]

/-- The invariant depends only on the parameters, the vector registers, the builder and the two error
fields. -/
theorem State.Inv.transfer {s t : State} (h : s.Inv) (hc : t.config = s.config) (hv : t.vr = s.vr)
    (hb : t.builder = s.builder) (he : t.err ≠ none → t.anyErr = true) : t.Inv where
  config  := hc ▸ h.config
  vectors := fun r v hr => hc ▸ h.vectors r v (State.vreg_congr hv r ▸ hr)
  builder := hb ▸ hc ▸ h.builder
  sticky  := he

theorem State.SameVisible.refl (s : State) : s.SameVisible s := ⟨_, rfl, fun _ => rfl⟩

end Sys2Proof.Machine
end

