-- ==== Sys2Proof/Tests/Slice0.lean ====
section
/-! SUPPORT. Tests and witnesses. Every expected value is the spec's own: a word written out from the
encoding of spec/30_encoding.md, an example of a command's rule, or a vector V-… of
spec/95_test_vectors.md. Each witness shows states and operands that meet the hypotheses of one
obligation, clause by clause, at boundary values. -/

namespace Sys2Proof.Tests

open Sys2Proof Sys2Proof.Machine

/-! ## Helpers -/

/-- V-F2: the 32-bit fixture. -/
def v32 : Vec := ⟨[0xFC16AFEE]⟩

/-- V-F1: the 128-bit fixture, word 0 first. -/
def v128 : Vec := ⟨[0xDF72D16A, 0x3A039EB0, 0x0D018ECA, 0xE1B85117]⟩

/-- The reset state with the two arguments written. -/
def withArgs (a0 a1 : Word) (s : State := .reset) : State := { s with arg0 := a0, arg1 := a1 }

/-- `v1` holds V-F2, `v2` holds V-F1; the rest is as after reset. -/
def loaded : State := (State.reset.setVreg 1 v32).setVreg 2 v128

/-- An open builder of one word. -/
def building : State := { State.reset with builder := ⟨.opened, 32, [0xEE, 0xAF, 0x16, 0xFC]⟩ }

/-- A consumed builder. -/
def built : State := { State.reset with builder := ⟨.consumed, 32, [0xEE, 0xAF, 0x16, 0xFC]⟩ }

/-- The reset state with one host event pending. -/
def pending (e : HostEvent) (s : State := .reset) : State := { s with host := [e] }

/-- The next state, if there is one. -/
def nextOf : Out → Option State
  | .next t    => some t
  | .fault _   => none
  | .refused _ => none

/-- A vector register after. -/
def vregAfter (r : VReg) (o : Out) : Option Vec := (nextOf o).bind (·.vreg r)

/-- `STATUS` after. -/
def statusAfter (o : Out) : Option Word := (nextOf o).map State.statusWord

/-- `RESULT` after. -/
def resultAfter (o : Out) : Option Word := (nextOf o).map (·.result)

/-! ## WellFormed: an ill-formed command for each check -/

/-- R54: bit 20 set. -/
theorem test_wf_refuses_reserved_bits :
    (Cmd.mk 1 0 0 0 0x04).reservedZero = false ∧ (Cmd.mk 1 0 0 0 0x04).wf = false := by decide

/-- R55: opcode 0x0D. -/
theorem test_wf_refuses_reserved_opcode :
    (Cmd.mk 0 0 0 0 0x0D).opDefined = false ∧ (Cmd.mk 0 0 0 0 0x0D).wf = false := by decide

/-- R53: VFILL with VA = 3, VSIZE with VD = 1, VNOT with VB = 1. -/
theorem test_wf_refuses_unused_fields :
    (Cmd.mk 0 0 3 0 0x01).unusedZero = false ∧ (Cmd.mk 0 0 3 0 0x01).wf = false ∧
    (Cmd.mk 0 0 0 1 0x02).wf = false ∧ (Cmd.mk 0 1 0 0 0x03).wf = false := by decide

theorem test_wf_accepts : (Cmd.mk 0 15 15 15 0x04).wf = true := by decide

/-- R6: a capacity of 9 words, one of 2^26 words, a base off its alignment. -/
theorem test_config_wf : (Config.mk 9 0).wf = false ∧ (Config.mk (2 ^ 26) 0).wf = false ∧
    (Config.mk 10 16).wf = false ∧ (Config.mk 10 32).wf = true ∧ (Config.mk (2 ^ 26 - 1) 0).wf = true := by
  decide

/-! ## Decode: every constructor by a word written out from R50 and R52, and V-R3 -/

theorem test_decode_nop : decode 0b000000000000_0000_0000_0000_00000000 = .ok .nop := by decide
theorem test_decode_vfill : decode 0b000000000000_0000_0000_1111_00000001 = .ok (.vfill 15) := by decide
theorem test_decode_vsize : decode 0b000000000000_0000_1111_0000_00000010 = .ok (.vsize 15) := by decide
theorem test_decode_vnot : decode 0b000000000000_0000_0001_0010_00000011 = .ok (.vnot 2 1) := by decide
theorem test_decode_vand : decode 0b000000000000_0010_0001_0011_00000100 = .ok (.vand 3 1 2) := by decide
theorem test_decode_vor : decode 0b000000000000_0010_0001_0011_00000101 = .ok (.vor 3 1 2) := by decide
theorem test_decode_veq : decode 0b000000000000_0010_0001_0000_00000110 = .ok (.veq 1 2) := by decide
theorem test_decode_vxz : decode 0b000000000000_0000_0001_0010_00000111 = .ok (.vxz 2 1) := by decide
theorem test_decode_vxw : decode 0b000000000000_0000_0001_0010_00001000 = .ok (.vxw 2 1) := by decide
theorem test_decode_bnew : decode 0b000000000000_0000_0000_0000_00001001 = .ok .bnew := by decide
theorem test_decode_bset : decode 0b000000000000_0000_0000_0000_00001010 = .ok .bset := by decide
theorem test_decode_bbuild : decode 0b000000000000_0000_0000_0001_00001011 = .ok (.bbuild 1) := by decide
theorem test_decode_vrdw : decode 0b000000000000_0000_0001_0000_00001100 = .ok (.vrdw 1) := by decide

/-- V-R3: the illegal words. -/
theorem test_decode_illegal_words :
    decode 0x0000000D = .error .reservedOpcode ∧ decode 0x000000FF = .error .reservedOpcode ∧
    decode 0x00100004 = .error .reservedBits ∧ decode 0x80000000 = .error .reservedBits ∧
    decode 0x00000100 = .error .unusedField ∧ decode 0x00000102 = .error .unusedField ∧
    decode 0x00001001 = .error .unusedField ∧ decode 0x00010003 = .error .unusedField ∧
    decode 0x00000109 = .error .unusedField ∧ decode 0x0000100B = .error .unusedField ∧
    decode 0x0001100C = .error .unusedField ∧ decode 0x00050208 = .error .unusedField := by decide

/-- R42, R50: the byte lanes of `0x00021304`, lane 0 first; any other length is no command. -/
theorem test_decode_bytes :
    decodeBytes [0x04, 0x13, 0x02, 0x00] = .ok (.vand 3 1 2) ∧
    decodeBytes [0x04, 0x13, 0x02] = .error .wrongLength ∧
    decodeTableWord 32 0x00021304 = some (.vand 3 1 2) ∧ decodeTableWord 32 0x00100004 = none := by decide

/-! ## The commands -/

/-- R65's example. -/
theorem test_vfill : vregAfter 2 (exec (.vfill 2) (withArgs 64 1)) =
    some ⟨[0xFFFFFFFF, 0xFFFFFFFF]⟩ := by decide

/-- V-C2: 512 is legal at `MAX_WORDS = 16` (V-C1), 544 is not, and the size is checked before the
value. -/
theorem test_vfill_errors : statusAfter (exec (.vfill 3) (withArgs 512 1)) = some 0 ∧
    statusAfter (exec (.vfill 3) (withArgs 544 2)) = some 0x1A ∧
    statusAfter (exec (.vfill 3) (withArgs 33 2)) = some 0x11 ∧
    statusAfter (exec (.vfill 3) (withArgs 64 2)) = some 0x19 ∧
    statusAfter (exec (.vfill 3) (withArgs 0x80000000 0)) = some 0x11 := by decide

/-- V-C3. -/
theorem test_vsize : resultAfter (exec (.vsize 2) loaded) = some 0x80 ∧
    statusAfter (exec (.vsize 9) loaded) = some 0x17 := by decide

/-- V-C4, and aliasing. -/
theorem test_vnot : vregAfter 3 (exec (.vnot 3 1) loaded) = some ⟨[0x03E95011]⟩ ∧
    vregAfter 2 (exec (.vnot 2 2) loaded) =
      some ⟨[0x208D2E95, 0xC5FC614F, 0xF2FE7135, 0x1E47AEE8]⟩ := by decide

/-- V-C5, and V-S9. -/
theorem test_vand : vregAfter 3 (exec (.vand 3 1 4) (loaded.setVreg 4 ⟨[0x0F0F0F0F]⟩)) =
      some ⟨[0x0C060F0E]⟩ ∧
    statusAfter (exec (.vand 3 1 2) loaded) = some 0x13 := by decide

/-- V-C5, and V-C7. -/
theorem test_vor : vregAfter 3 (exec (.vor 3 1 4) (loaded.setVreg 4 ⟨[0x0F0F0F0F]⟩)) =
      some ⟨[0xFF1FAFEF]⟩ ∧
    statusAfter (exec (.vor 3 1 6) loaded) = some 0x17 := by decide

/-- V-C8. -/
theorem test_veq : resultAfter (exec (.veq 1 1) loaded) = some 1 ∧
    resultAfter (exec (.veq 1 2) loaded) = some 0 := by decide

/-- V-S1, and V-X2g. -/
theorem test_vxz : vregAfter 3 (exec (.vxz 3 1) (withArgs 3 32 loaded)) = some ⟨[0x1F82D5FD]⟩ ∧
    vregAfter 3 (exec (.vxz 3 2) (withArgs (-33) 64 loaded)) = some ⟨[0x00000000, 0xBEE5A2D4]⟩ := by
  decide +kernel

/-- V-X5: 544 exceeds the capacity, an unwritten source is reported before a bad size, and no value of
`start` raises. -/
theorem test_vxz_errors : statusAfter (exec (.vxz 3 2) (withArgs 0 544 loaded)) = some 0x1A ∧
    statusAfter (exec (.vxz 3 9) (withArgs 0 0 loaded)) = some 0x17 ∧
    statusAfter (exec (.vxz 3 2) (withArgs 0x80000000 33 loaded)) = some 0x12 := by decide +kernel

/-- V-S2, and V-X4: `start = 2^31 - 1`. -/
theorem test_vxw : vregAfter 3 (exec (.vxw 3 1) (withArgs 3 32 loaded)) = some ⟨[0xDF82D5FD]⟩ ∧
    vregAfter 3 (exec (.vxw 3 2) (withArgs 0x7FFFFFFF 32 loaded)) = some ⟨[0xBEE5A2D5]⟩ := by
  decide +kernel

/-- V-S5: more than one period, from a negative start. -/
theorem test_vxw_tiles : vregAfter 3 (exec (.vxw 3 2) (withArgs (-32) 160 loaded)) =
    some ⟨[0xE1B85117, 0xDF72D16A, 0x3A039EB0, 0x0D018ECA, 0xE1B85117]⟩ := by decide +kernel

/-- R84's example, and V-B5 step 13. -/
theorem test_bnew : nextOf (exec .bnew (withArgs 128 0)) =
      some { withArgs 128 0 with builder := ⟨.opened, 128, List.replicate 16 0⟩ } ∧
    statusAfter (exec .bnew (withArgs 544 0 { built with anyErr := true })) = some 0x21A := by
  decide +kernel

/-- R85's example, byte 3 being the most significant. -/
theorem test_bset : (nextOf (exec .bset (withArgs 3 0xFC { building with
    builder := ⟨.opened, 32, [0, 0, 0, 0]⟩ }))).map (·.builder.bytes) = some [0, 0, 0, 0xFC] := by decide

/-- V-B5 steps 1, 4 to 7 and 10. -/
theorem test_bset_errors : statusAfter (exec .bset (withArgs 0 0)) = some 0x18 ∧
    statusAfter (exec .bset (withArgs 4 0 building)) = some 0x114 ∧
    statusAfter (exec .bset (withArgs 0xFFFFFFFF 0 building)) = some 0x114 ∧
    statusAfter (exec .bset (withArgs 3 0x100 building)) = some 0x119 ∧
    statusAfter (exec .bset (withArgs 4 0x100 building)) = some 0x114 ∧
    statusAfter (exec .bset (withArgs 4 0x100 built)) = some 0x215 := by decide

/-- R86's example. -/
theorem test_bbuild : vregAfter 1 (exec (.bbuild 1) building) = some v32 ∧
    statusAfter (exec (.bbuild 1) building) = some 0x200 ∧
    statusAfter (exec (.bbuild 1) State.reset) = some 0x18 := by decide

/-- V-R1. -/
theorem test_vrdw : resultAfter (exec (.vrdw 2) (withArgs 3 0 loaded)) = some 0xE1B85117 ∧
    statusAfter (exec (.vrdw 2) (withArgs 4 0 loaded)) = some 0x14 ∧
    statusAfter (exec (.vrdw 2) (withArgs 0xFFFFFFFF 0 loaded)) = some 0x14 := by decide

/-- R91's example. -/
theorem test_nop : statusAfter (exec .nop { State.reset with err := some .sizeMismatch, anyErr := true }) =
    some 0x10 := by decide

/-! ## Steps -/

/-- R45, R92: an illegal word; `CMD` holds it. -/
theorem test_step_illegal : nextOf (step (State.reset.withFetchWord 32 0x0000000D)) =
    some { State.reset with cmd := 0x0000000D, err := some .illegalCommand, anyErr := true } := by
  decide +kernel

/-- The first command after reset: VFILL with `ARG0 = 0` raises `InvalidSize` (R115). -/
theorem test_step_first_command : nextOf (step (State.reset.withFetchWord 32 0x00000201)) =
    some { State.reset with cmd := 0x00000201, err := some .invalidSize, anyErr := true } := by
  decide +kernel

/-- R34, R28: a read of `VRVALID`, with `v1` and `v2` valid. -/
theorem test_step_read : nextOf (step (pending (.read 0x1C 4) loaded)) =
    some { loaded with readData := some 0x00000006 } := by decide +kernel

/-- R35, R36, R38: bus errors. -/
theorem test_step_bus_errors : nextOf (step (pending (.read 0x10 2))) = none ∧
    nextOf (step (pending (.write 0x06 4 0))) = none ∧ nextOf (step (pending (.write 0x10 4 0))) = none := by
  decide

/-! ## Pure functions and text -/

/-- R77 on V-X2m, both policies. -/
theorem test_funnel : funnel (wordZ v128) 100 96 = ⟨[0x0E1B8511, 0x00000000, 0x00000000]⟩ ∧
    funnel (wordW v128) 100 96 = ⟨[0xAE1B8511, 0x0DF72D16, 0xA3A039EB]⟩ := by decide +kernel

/-- V-F2's rendering. -/
theorem test_render : render v32 = "11111100000101101010111111101110".toList := by decide +kernel

/-- V-X7, law 4's value as an integer. -/
theorem test_toNat : (extractW v128 4 128).toNat = 0xAE1B851170D018ECA3A039EB0DF72D16 := by decide +kernel

/-- Lines of P1 and P3. -/
theorem test_parse : parse "XW   v2, v1, -32, 160\nWR CMD, 0x0000000D ; BNEW  -- ARG0 = 32" =
    some [.xw 2 1 (-32) 160, .prim (.wr .cmd 13), .prim (.cmd .bnew)] ∧
    parse "VFILL v16" = none := by decide +kernel

/-- R60's example of a command in text. -/
theorem test_text : instrText (.vand 3 1 2) = "VAND v3, v1, v2" ∧ instrText .nop = "NOP" := by
  decide +kernel

/-- P1, writes 1 to 5: the start of LOADVEC for V-F1 sends byte 0, `0x6A`, first. -/
theorem test_loadvec_order :
    (Stmt.loadvec 1 [0xE1B85117, 0x0D018ECA, 0x3A039EB0, 0xDF72D16A]).expand.take 5 =
      [.wr .arg0 128, .cmd .bnew, .wr .arg0 0, .wr .arg1 0x6A, .cmd .bset] := by decide +kernel

/-! ## Witnesses of the obligations' hypotheses -/

/-- A state with a vector, an open builder and an error, that meets the invariant. -/
def busy : State := { State.reset.setVreg 1 v32 with
  builder := ⟨.opened, 32, [0xEE, 0xAF, 0x16, 0xFC]⟩, err := some .noBuilder, anyErr := true }

theorem busy_inv : busy.Inv where
  config := by decide
  vectors := fun r v h => by
    have h' : (State.reset.setVreg 1 v32).vreg r = some v := h
    rw [State.vreg_setVreg] at h'
    split at h'
    · cases h'; decide
    · rw [show State.reset.vreg r = none from State.vreg_resetWith _ r] at h'; cases h'
  builder := by decide
  sticky := fun _ => rfl

theorem witness_ResetLeavesTheResetValues :
    (∃ (s t : State) (es : List HostEvent), s.host = .reset :: es ∧ step s = .next t) ∧
    ∃ (t : State) (c : Config), t = State.resetWith c :=
  ⟨⟨pending .reset loaded, _, [], rfl, rfl⟩, ⟨State.reset, Config.example16, rfl⟩⟩

theorem witness_StepRunsTheWrittenCommand :
    (pending (.write 0 4 0x00001203) loaded).host =
      .write (pending (.write 0 4 0x00001203) loaded).config.base 4 0x00001203 :: [] ∧
    decode 0x00001203 = .ok (.vnot 2 1) := by decide

theorem witness_IllegalWordsRaiseIllegalCommand :
    (pending (.write 0 4 0xFF)).host = .write (pending (.write 0 4 0xFF)).config.base 4 0xFF :: [] ∧
    0x0D ≤ ((0x0D : Word).extractLsb' 0 8).toNat ∧ 0x0D ≤ ((0xFF : Word).extractLsb' 0 8).toNat ∧
    (0x00100004 : Word).extractLsb' 20 12 ≠ 0 ∧ (Cmd.ofWord 0x00003001).unusedZero = false := by decide

theorem witness_NoHostEventLeavesTheStateAsItIs : loaded.host = [] := rfl

theorem witness_ReadsReturnTheRegister :
    let s : State := { loaded with host := [.read 0x1C 4, .read 0x1C 4] }
    s.host = .read (s.config.base + 0x1C) 4 :: .read (s.config.base + 0x1C) 4 :: [] ∧
    (0x1C, s.vrvalidWord) ∈ [(0x00, s.cmd), (0x04, s.arg0), (0x08, s.arg1), (0x0C, s.result),
      (0x10, s.statusWord), (0x14, BitVec.ofNat 32 s.config.maxWords),
      (0x18, BitVec.ofNat 32 s.builder.size), (0x1C, s.vrvalidWord)] := by
  exact ⟨rfl, by simp⟩

theorem witness_ArgumentWritesOnlyStore :
    (pending (.write 0x04 4 7)).host = .write (State.reset.config.base + 0x04) 4 7 :: [] ∧
    (pending (.write 0x08 4 7)).host = .write (State.reset.config.base + 0x08) 4 7 :: [] ∧
    ∃ s : State, s.host = .write (s.config.base + 0x08) 4 7 :: .write (s.config.base + 0x08) 4 7 :: [] :=
  ⟨rfl, rfl, ⟨{ State.reset with host := [.write 0x08 4 7, .write 0x08 4 7] }, rfl⟩⟩

theorem witness_BusErrorsAreRefused :
    (∃ s : State, s.host = [.read (s.config.base + 31) 1] ∧ 31 < 32 ∧ (1 ≠ 4 ∨ 31 % 4 ≠ 0)) ∧
    (∃ s : State, s.host = [.write (s.config.base + 2) 4 0] ∧ 2 < 32 ∧ (4 ≠ 4 ∨ 2 % 4 ≠ 0)) ∧
    (∃ s : State, s.host = [.write (s.config.base + 0x1C) 4 0] ∧ 0x1C ∈ [0x0C, 0x10, 0x14, 0x18, 0x1C]) ∧
    ∃ s : State, s.host = [.read (s.config.base + 28) 4] ∧ 28 < 32 ∧ 28 % 4 = 0 :=
  ⟨⟨pending (.read 31 1), rfl, by decide, by decide⟩, ⟨pending (.write 2 4 0), rfl, by decide, by decide⟩,
    ⟨pending (.write 0x1C 4 0), rfl, by decide⟩, ⟨pending (.read 28 4), rfl, by decide, by decide⟩⟩

/-- Sizes 0, -32 and 33; 544 over the capacity of 512; 512 and 32 with the values 2, 1 and 0. -/
theorem witness_VfillFillsOrRaises :
    ((withArgs 0 0).arg0.toInt ≤ 0 ∧ (withArgs (-32) 0).arg0.toInt ≤ 0 ∧
      (withArgs 33 0).arg0.toInt % 32 ≠ 0) ∧
    (∃ s : State, 0 < s.arg0.toInt ∧ s.arg0.toInt % 32 = 0 ∧ 32 * (s.config.maxWords : Int) < s.arg0.toInt) ∧
    (∃ s : State, 0 < s.arg0.toInt ∧ s.arg0.toInt % 32 = 0 ∧
      s.arg0.toInt ≤ 32 * (s.config.maxWords : Int) ∧ 1 < s.arg1.toNat) ∧
    ∀ b : Bool, ∃ s : State, 0 < s.arg0.toInt ∧ s.arg0.toInt % 32 = 0 ∧
      s.arg0.toInt ≤ 32 * (s.config.maxWords : Int) ∧ s.arg1 = (if b then 1 else 0) :=
  ⟨by decide, ⟨withArgs 544 0, by decide⟩, ⟨withArgs 512 2, by decide⟩,
    fun b => ⟨withArgs 32 (if b then 1 else 0), by cases b <;> decide⟩⟩

theorem witness_VsizeReturnsTheSize : loaded.vreg 9 = none ∧ loaded.vreg 2 = some v128 ∧ busy.Inv ∧
    busy.vreg 1 = some v32 := ⟨by decide, by decide, busy_inv, by decide⟩

theorem witness_VnotComplements : loaded.vreg 15 = none ∧ loaded.vreg 1 = some v32 := by decide

/-- For VAND and VOR: a missing first source, a missing second one, two sizes, one size. -/
theorem witness_VandConjoins : loaded.vreg 0 = none ∧ loaded.vreg 1 = some v32 ∧
    loaded.vreg 2 = some v128 ∧ v32.size ≠ v128.size ∧ v32.size = v32.size := by decide

theorem witness_VorDisjoins : loaded.vreg 15 = none ∧ loaded.vreg 1 = some v32 ∧
    loaded.vreg 2 = some v128 ∧ v128.size ≠ v32.size ∧ v128.size = v128.size := by decide

/-- Two equal vectors; two of one size that differ in the last word; two of different sizes. -/
theorem witness_VeqComparesSizeAndWords :
    let w : Vec := ⟨[0xDF72D16A, 0x3A039EB0, 0x0D018ECA, 0xE1B85116]⟩
    loaded.vreg 0 = none ∧ loaded.vreg 2 = some v128 ∧ (loaded.setVreg 3 w).vreg 3 = some w ∧
    (v128.size = v128.size ∧ ∀ k < v128.nw, v128.word k = v128.word k) ∧
    ¬ (v128.size = w.size ∧ ∀ k < v128.nw, v128.word k = w.word k) ∧
    ¬ (v32.size = v128.size ∧ ∀ k < v32.nw, v32.word k = v128.word k) := by decide +kernel

/-- Window sizes 0, -32 and 48; 544 over the capacity; 512 at it. For VXZ and VXW alike. -/
theorem witness_VxzExtractsZeroExtended : loaded.vreg 9 = none ∧
    (∃ s : State, s.vreg 2 = some v128 ∧ s.arg1.toInt ≤ 0) ∧
    (∃ s : State, s.vreg 2 = some v128 ∧ s.arg1.toInt % 32 ≠ 0) ∧
    (∃ s : State, s.vreg 2 = some v128 ∧ 0 < s.arg1.toInt ∧ s.arg1.toInt % 32 = 0 ∧
      32 * (s.config.maxWords : Int) < s.arg1.toInt) ∧
    ∃ s : State, s.vreg 2 = some v128 ∧ 0 < s.arg1.toInt ∧ s.arg1.toInt % 32 = 0 ∧
      s.arg1.toInt ≤ 32 * (s.config.maxWords : Int) :=
  ⟨by decide, ⟨withArgs 0 (-32) loaded, by decide⟩, ⟨withArgs 0 48 loaded, by decide⟩,
    ⟨withArgs 0 544 loaded, by decide⟩, ⟨withArgs 0x80000000 512 loaded, by decide⟩⟩

theorem witness_VxwExtractsWrapped : loaded.vreg 0 = none ∧
    (∃ s : State, s.vreg 1 = some v32 ∧ s.arg1.toInt ≤ 0) ∧
    (∃ s : State, s.vreg 1 = some v32 ∧ s.arg1.toInt % 32 ≠ 0) ∧
    (∃ s : State, s.vreg 1 = some v32 ∧ 0 < s.arg1.toInt ∧ s.arg1.toInt % 32 = 0 ∧
      32 * (s.config.maxWords : Int) < s.arg1.toInt) ∧
    ∃ s : State, s.vreg 1 = some v32 ∧ 0 < s.arg1.toInt ∧ s.arg1.toInt % 32 = 0 ∧
      s.arg1.toInt ≤ 32 * (s.config.maxWords : Int) :=
  ⟨by decide, ⟨withArgs 0 0 loaded, by decide⟩, ⟨withArgs 0 1 loaded, by decide⟩,
    ⟨withArgs 0 544 loaded, by decide⟩, ⟨withArgs 0x7FFFFFFF 32 loaded, by decide⟩⟩

theorem witness_BnewOpensAZeroedBuilder :
    ((withArgs 0 0).arg0.toInt ≤ 0 ∧ (withArgs 0xFFFFFFFF 0).arg0.toInt ≤ 0 ∧
      (withArgs 1 0).arg0.toInt % 32 ≠ 0) ∧
    (∃ s : State, 0 < s.arg0.toInt ∧ s.arg0.toInt % 32 = 0 ∧ 32 * (s.config.maxWords : Int) < s.arg0.toInt) ∧
    ∃ s : State, 0 < s.arg0.toInt ∧ s.arg0.toInt % 32 = 0 ∧ s.arg0.toInt ≤ 32 * (s.config.maxWords : Int) :=
  ⟨by decide, ⟨withArgs 544 0, by decide⟩, ⟨withArgs 512 0 built, by decide⟩⟩

/-- Indexes -1 and 4 of a four-byte builder, 3 with the values 0x100 and 0xFF. -/
theorem witness_BsetWritesOneByte : State.reset.builder.state = .idle ∧ built.builder.state = .consumed ∧
    (∃ s : State, s.builder.state = .opened ∧ s.arg0.toInt < 0) ∧
    (∃ s : State, s.builder.state = .opened ∧ ((s.builder.size / 8 : Nat) : Int) ≤ s.arg0.toInt) ∧
    (∃ s : State, s.builder.state = .opened ∧ 0 ≤ s.arg0.toInt ∧
      s.arg0.toInt < ((s.builder.size / 8 : Nat) : Int) ∧ 0xFF < s.arg1.toNat) ∧
    ∃ s : State, s.builder.state = .opened ∧ 0 ≤ s.arg0.toInt ∧
      s.arg0.toInt < ((s.builder.size / 8 : Nat) : Int) ∧ s.arg1.toNat ≤ 0xFF :=
  ⟨by decide, by decide, ⟨withArgs (-1) 0 building, by decide⟩, ⟨withArgs 4 0 building, by decide⟩,
    ⟨withArgs 3 0x100 building, by decide⟩, ⟨withArgs 3 0xFF building, by decide⟩⟩

theorem witness_BbuildPacksAndConsumes : State.reset.builder.state = .idle ∧
    built.builder.state = .consumed ∧ building.builder.state = .opened := by decide

/-- Word indexes -1 and 4 of a vector of four words, and the last word, 3. -/
theorem witness_VrdwReadsOneWord : loaded.vreg 9 = none ∧
    (∃ s : State, s.vreg 2 = some v128 ∧ s.arg0.toInt < 0) ∧
    (∃ s : State, s.vreg 2 = some v128 ∧ (v128.nw : Int) ≤ s.arg0.toInt) ∧
    ∃ s : State, s.vreg 2 = some v128 ∧ 3 < v128.words.length ∧ s.arg0.toInt = (3 : Nat) :=
  ⟨by decide, ⟨withArgs (-1) 0 loaded, by decide⟩, ⟨withArgs 4 0 loaded, by decide⟩,
    ⟨withArgs 3 0 loaded, by decide⟩⟩

theorem witness_StatusFieldsHoldTheCodes :
    (none, 0) ∈ [((none : Option ErrKind), 0), (some .capacityExceeded, 10)] ∧ loaded.err = none ∧
    busy.err = some .noBuilder ∧ busy.builder.state = .opened := by decide

theorem witness_ReadOnlyRegistersMirrorTheState :
    busy.Inv ∧ State.reset.builder.state = .idle ∧ ∃ t, step busy = .next t :=
  ⟨busy_inv, rfl, _, rfl⟩

theorem witness_FillIsUniform : sizeOK 32 = true ∧ 31 < 32 ∧ 0 < 32 / 32 := by decide

theorem witness_BooleanUnitWorksBitByBit :
    (fill 128 true).size = v128.size ∧ 3 < v128.nw ∧ 127 < v128.size := by decide

theorem witness_BooleanLawsHold :
    v128.size = (fill 128 true).size ∧ (fill 128 true).size = (fill 128 false).size := by decide

/-- The last bit of the window inside the source, and the first one outside it at either end. -/
theorem witness_ZeroExtractionBits : sizeOK 32 = true ∧
    (31 < 32 ∧ (96 : Int) + (31 : Nat) = (127 : Nat) ∧ 127 < v128.size) ∧
    (0 < 32 ∧ (-1 : Int) + (0 : Nat) < 0) ∧ (v128.size : Int) ≤ 97 + (31 : Nat) := by decide

theorem witness_WrappedExtractionBits : sizeOK 32 = true ∧ 0 < v128.size ∧ 0 < 32 ∧ 127 < v128.size ∧
    ∃ q : Int, (-1 : Int) + (0 : Nat) = v128.size * q + (127 : Nat) :=
  ⟨by decide, by decide, by decide, by decide, -1, by decide⟩

theorem witness_DatapathComputesExtraction : sizeOK 96 = true ∧ 0 < v128.size := by decide

theorem witness_ExtractionsAgreeInRange : sizeOK 32 = true ∧ 96 + 32 ≤ v128.size := by decide

theorem witness_ExtractionIdentityPeriodAndRange : 0 < v128.size ∧ sizeOK 32 = true ∧
    (v128.size : Int) ≤ 128 ∧ (-32 : Int) + (32 : Nat) ≤ 0 := by decide

theorem witness_WrappedExtractionRotates : 127 < v128.size ∧
    ∃ q : Int, (-1 : Int) = v128.size * q + (127 : Nat) := ⟨by decide, -1, by decide⟩

theorem witness_WrappedExtractionTiles : 0 < v128.size := by decide

theorem witness_PackIsByteZeroLeastSignificant :
    sizeOK 32 = true ∧ ([0xEE, 0xAF, 0x16, 0xFC] : List Byte).length = 32 / 8 ∧
    4 * 0 + 3 < ([0xEE, 0xAF, 0x16, 0xFC] : List Byte).length ∧ 7 < 8 := by decide

theorem witness_BuilderAndFillAgree : sizeOK 32 = true ∧
    0 < (withArgs 512 1).arg0.toInt ∧ (withArgs 512 1).arg0.toInt % 32 = 0 ∧
    (withArgs 512 1).arg0.toInt ≤ 32 * ((withArgs 512 1).config.maxWords : Int) := by decide

theorem witness_RenderShowsTheBitsMostSignificantFirst :
    31 < v32.size ∧ render v32 = render ⟨[0xFC16AFEE]⟩ := by decide +kernel

theorem witness_EncodeUndoesDecode : decode 0x00021304 = .ok (.vand 3 1 2) := by decide

theorem witness_LegalWordsAreTheWellFormedFields :
    (Cmd.ofWord 0x000FFF04).wf = true ∧ (Cmd.ofWord 0x00100004).reservedZero = false ∧
    ((Cmd.ofWord 0x0000000D).reservedZero = true ∧ (Cmd.ofWord 0x0000000D).opDefined = false) ∧
    ((Cmd.ofWord 0x00003001).reservedZero = true ∧ (Cmd.ofWord 0x00003001).opDefined = true ∧
      (Cmd.ofWord 0x00003001).unusedZero = false) := by decide

theorem witness_NoWordMatchesTwoRows : (opTable[4]).matches 0x00021304 = true := by decide

theorem witness_StepKeepsTheInvariant : busy.Inv ∧ ∃ t, step busy = .next t := ⟨busy_inv, _, rfl⟩

theorem witness_ResetMeetsTheInvariant : (Config.mk 10 32).wf = true := by decide

theorem witness_ErrorsArePrecise :
    (∃ t, exec (.bbuild 1) State.reset = .next t ∧ t.err = some .noBuilder) ∧
    ∃ t, exec .nop busy = .next t ∧ t.err = none := ⟨⟨_, rfl, rfl⟩, ⟨_, rfl, rfl⟩⟩

/-- Every error kind that a decoded command can raise is raised by one, and an illegal word raises the
tenth. -/
theorem witness_ErrorsHaveTheListedCauses :
    (∃ t, exec (.vfill 0) State.reset = .next t ∧ t.err = some .invalidSize) ∧
    (∃ t, exec (.vxz 0 1) loaded = .next t ∧ t.err = some .invalidWindowSize) ∧
    (∃ t, exec (.vor 0 1 2) loaded = .next t ∧ t.err = some .sizeMismatch) ∧
    (∃ t, exec (.vrdw 1) (withArgs 1 0 loaded) = .next t ∧ t.err = some .indexOutOfRange) ∧
    (∃ t, exec .bset built = .next t ∧ t.err = some .alreadyBuilt) ∧
    (∃ t, exec (.veq 1 9) loaded = .next t ∧ t.err = some .unwrittenRegister) ∧
    (∃ t, exec .bset State.reset = .next t ∧ t.err = some .noBuilder) ∧
    (∃ t, exec .bset (withArgs 0 0x100 building) = .next t ∧ t.err = some .valueOutOfRange) ∧
    (∃ t, exec .bnew (withArgs 544 0) = .next t ∧ t.err = some .capacityExceeded) ∧
    ∃ t, step (pending (.write 0 4 0x0D)) = .next t ∧ t.err = some .illegalCommand :=
  ⟨⟨_, rfl, rfl⟩, ⟨_, rfl, rfl⟩, ⟨_, rfl, rfl⟩, ⟨_, rfl, rfl⟩, ⟨_, rfl, rfl⟩, ⟨_, rfl, rfl⟩, ⟨_, rfl, rfl⟩,
    ⟨_, rfl, rfl⟩, ⟨_, rfl, rfl⟩, ⟨_, rfl, rfl⟩⟩

theorem witness_CommandFrames : (∃ t, exec (.vnot 3 1) loaded = .next t) ∧
    (∀ a : VReg, Instr.vnot 3 1 ≠ .vnot 4 a) ∧ Instr.vnot 3 1 ≠ .bnew := ⟨⟨_, rfl⟩, by decide, by decide⟩

theorem witness_ResultChangesOnlyBySuccessfulReaders :
    ∃ t, exec (.vsize 2) loaded = .next t ∧ t.result ≠ loaded.result := ⟨_, rfl, by decide⟩

/-- A register changed by a command, and one changed by reset. -/
theorem witness_VectorRegistersChangeOnlyAsListed :
    (∃ t, step (pending (.write 0 4 0x00001303) loaded) = .next t ∧ t.vreg 3 ≠ loaded.vreg 3) ∧
    ∃ t, step (pending .reset loaded) = .next t ∧ t.vreg 1 ≠ loaded.vreg 1 :=
  ⟨⟨_, rfl, by decide⟩, ⟨_, rfl, by decide⟩⟩

theorem witness_OnlyResetClearsAnyErrAndRegisters :
    (∃ t, HostEvent.reset ∉ (pending (.write 0 4 0) busy).host ∧
      Host.Core.run core 1 (pending (.write 0 4 0) busy) = .next t) ∧
    busy.anyErr = true ∧ busy.vreg 1 = some v32 ∧ (pending .reset busy).host = .reset :: [] :=
  ⟨⟨_, by decide, rfl⟩, rfl, by decide, rfl⟩

theorem witness_ConsumedBuilderIsFinal : built.builder.state = .consumed ∧
    ∃ t, step (pending (.write 0 4 0x0A) built) = .next t := ⟨rfl, _, rfl⟩

theorem witness_BuilderLifeCycle :
    (∃ t, exec .bnew (withArgs 32 0) = .next t ∧ t.err = none) ∧
    (∃ t, exec .bset building = .next t ∧ t.err = none) ∧
    (∃ t, exec (.bbuild 1) building = .next t ∧ t.err = none) ∧
    (∃ t, exec .bset built = .next t ∧ t.err ≠ none) ∧ building.builder.state = .opened :=
  ⟨⟨_, rfl, rfl⟩, ⟨_, rfl, rfl⟩, ⟨_, rfl, rfl⟩, ⟨_, rfl, by decide⟩, rfl⟩

/-- Two different states with idle builders, and two with consumed ones. -/
theorem witness_HiddenBytesAreNeverObserved :
    (State.reset.SameVisible { State.reset with builder := ⟨.idle, 0, [0xFF]⟩ } ∧
      State.reset ≠ { State.reset with builder := ⟨.idle, 0, [0xFF]⟩ }) ∧
    built.SameVisible { built with builder := ⟨.consumed, 32, []⟩ } :=
  ⟨⟨⟨[0xFF], rfl, by decide⟩, by decide⟩, ⟨[], rfl, by decide⟩⟩

theorem witness_SafeRunsNeverStop :
    ({ State.reset with host := [.write 0x04 4 32, .write 0 4 0x201, .read 0x1C 4, .reset] } : State).Safe := by
  intro e he
  simp only [List.mem_cons, List.not_mem_nil, or_false] at he
  rcases he with rfl | rfl | rfl | rfl <;> rfl

theorem witness_AliasedOperandsAreReadFirst : loaded.vreg 2 = some v128 := by decide

theorem witness_PseudoInstructionsRunTheirCommands :
    ∃ s : State, s.host = (Stmt.fill 1 256 0).events s.config ++ [] :=
  ⟨{ State.reset with host := (Stmt.fill 1 256 0).events Config.example16 }, rfl⟩

/-- One word, and as many as the capacity holds. -/
theorem witness_LoadvecBuildsTheVector :
    (∃ s : State, s.config.wf = true ∧ 0 < [(0xFC16AFEE : Word)].length ∧
      [(0xFC16AFEE : Word)].length ≤ s.config.maxWords ∧
      s.host = (Stmt.loadvec 1 [0xFC16AFEE]).events s.config ++ []) ∧
    (List.replicate 16 (0 : Word)).length ≤ State.reset.config.maxWords :=
  ⟨⟨{ State.reset with host := (Stmt.loadvec 1 [0xFC16AFEE]).events Config.example16 },
    by decide, by decide, by decide, (List.append_nil _).symm⟩, by decide⟩

theorem witness_AssemblerStatementsMeanTheirAccesses :
    (Reg.vrvalid, 0x1C) ∈ [(Reg.cmd, 0x00), (.arg0, 0x04), (.arg1, 0x08), (.result, 0x0C),
        (.status, 0x10), (.maxwords, 0x14), (.bldsize, 0x18), (.vrvalid, 0x1C)] := by decide

end Sys2Proof.Tests
end

section
/-! The invariant of the block is kept by every update a command makes, by every command, and by every
host event (spec/00_scope.md R6; spec/10_state.md R14, R22, R29, R33). -/

namespace Sys2Proof.Machine

variable {s t : State}

/-! ## Legal vectors and builders -/

/-- The size checks of R98 step 4 leave 1 to `MAX_WORDS` words. -/
theorem Vec.wf_of_sizeOK {c : Config} {v : Vec} {n : Int} (hn : sizeOK n = true)
    (hb : n ≤ c.maxBits) (hv : v.nw = n.toNat / 32) : v.wf c = true := by
  rw [sizeOK_iff] at hn
  rw [Config.maxBits_eq] at hb
  rw [Vec.wf_iff, hv]
  omega

theorem Vec.wf_of_nw_eq {c : Config} {v w : Vec} (hw : w.wf c = true) (h : v.nw = w.nw) :
    v.wf c = true := by
  rw [Vec.wf_iff] at hw ⊢
  rwa [h]

theorem Vec.nw_eq_of_size_eq {v w : Vec} (h : v.size = w.size) : v.nw = w.nw := by
  rw [Vec.size_eq, Vec.size_eq] at h
  omega

/-- The builder BNEW opens (R84). -/
theorem Builder.wf_opened_of_sizeOK {c : Config} {n : Int} (hn : sizeOK n = true)
    (hb : n ≤ c.maxBits) :
    Builder.wf c ⟨.opened, n.toNat, List.replicate (n.toNat / 8) 0⟩ = true := by
  rw [sizeOK_iff] at hn
  rw [Config.maxBits_eq] at hb
  rw [Builder.wf_made (by simp), List.length_replicate]
  dsimp only
  omega

/-- An open builder's byte may be replaced: the buffer keeps its length (R85). -/
theorem Builder.wf_setByte {c : Config} {b : Builder} (ho : b.state = .opened)
    (h : b.wf c = true) (k : Nat) (x : Byte) :
    Builder.wf c { b with bytes := b.bytes.set k x } = true := by
  rw [Builder.wf_made (by simp [ho])] at h
  rw [Builder.wf_made (by simp [ho]), List.length_set]
  exact h

/-- Consuming an open builder keeps its size and bytes (R86). -/
theorem Builder.wf_consume {c : Config} {b : Builder} (ho : b.state = .opened)
    (h : b.wf c = true) : Builder.wf c { b with state := .consumed } = true := by
  rw [Builder.wf_made (by simp [ho])] at h
  rw [Builder.wf_made (by simp)]
  exact h

/-- What an open builder packs is a legal vector (R86, R87). -/
theorem Vec.wf_pack {c : Config} {b : Builder} (ho : b.state = .opened) (h : b.wf c = true) :
    (pack b.size b.bytes).wf c = true := by
  rw [Builder.wf_made (by simp [ho])] at h
  rw [Vec.wf_iff, nw_pack]
  omega

/-! ## The invariant under each update -/

theorem State.Inv.raised (hs : s.Inv) (e : ErrKind) : (s.raised e).Inv :=
  hs.transfer rfl rfl rfl fun _ => rfl

theorem State.Inv.clearErr (hs : s.Inv) : State.Inv { s with err := none } :=
  hs.transfer rfl rfl rfl nofun

theorem State.Inv.succeedResult (hs : s.Inv) (w : Word) :
    State.Inv { s with result := w, err := none } :=
  hs.transfer rfl rfl rfl nofun

theorem State.Inv.withCmd (hs : s.Inv) (x : Word) : State.Inv { s with cmd := x } :=
  hs.transfer rfl rfl rfl hs.sticky

theorem State.Inv.withHost (hs : s.Inv) (es : List HostEvent) : State.Inv { s with host := es } :=
  hs.transfer rfl rfl rfl hs.sticky

theorem State.Inv.succeedBuilder (hs : s.Inv) {b : Builder} (hb : b.wf s.config = true) :
    State.Inv { s with builder := b, err := none } :=
  ⟨hs.config, hs.vectors, hb, nofun⟩

theorem State.Inv.setVreg (hs : s.Inv) (d : VReg) {v : Vec} (hv : v.wf s.config = true) :
    (s.setVreg d v).Inv where
  config  := hs.config
  vectors := fun r w hw => by
    rw [State.vreg_setVreg] at hw
    split at hw
    · cases hw
      exact hv
    · exact hs.vectors r w hw
  builder := hs.builder
  sticky  := hs.sticky

/-- R111: the reset state of legal parameters. -/
theorem State.inv_resetWith {c : Config} (hc : c.wf = true) : (State.resetWith c).Inv where
  config  := hc
  vectors := fun r v hv => by simp at hv
  builder := rfl
  sticky  := nofun

/-! ## The invariant under each command -/

theorem execVfill_keeps_inv {d : VReg} (hs : s.Inv) (h : execVfill d s = .next t) : t.Inv := by
  obtain ⟨-, h⟩ | ⟨-, -, h⟩ | ⟨-, -, -, h⟩ | ⟨hn, hb, -, h⟩ := execVfill_cases h <;> cases h
  · exact hs.raised _
  · exact hs.raised _
  · exact hs.raised _
  · exact (hs.setVreg d (Vec.wf_of_sizeOK hn hb (nw_fill _ _))).clearErr

theorem execVsize_keeps_inv {a : VReg} (hs : s.Inv) (h : execVsize a s = .next t) : t.Inv := by
  obtain ⟨-, h⟩ | ⟨v, -, h⟩ := execVsize_cases h <;> cases h
  · exact hs.raised _
  · exact hs.succeedResult _

theorem execVnot_keeps_inv {d a : VReg} (hs : s.Inv) (h : execVnot d a s = .next t) : t.Inv := by
  obtain ⟨-, h⟩ | ⟨v, hv, h⟩ := execVnot_cases h <;> cases h
  · exact hs.raised _
  · exact (hs.setVreg d (Vec.wf_of_nw_eq (hs.vectors a v hv) (nw_vnot v))).clearErr

/-- The shape VAND and VOR share: a word-by-word function of vectors of one size. -/
theorem binary_keeps_inv {d a b : VReg} {f : Vec → Vec → Vec}
    (hf : ∀ {v w : Vec}, v.nw = w.nw → (f v w).nw = v.nw) (hs : s.Inv)
    (h : (needVec a s fun va => needVec b s fun vb =>
      check (decide (va.size = vb.size)) .sizeMismatch s (succeed (s.setVreg d (f va vb)))) =
        .next t) : t.Inv := by
  obtain ⟨-, h⟩ | ⟨va, vb, ha, -, ⟨-, h⟩ | ⟨hsize, h⟩⟩ :=
    binary_cases (k := fun va vb => succeed (s.setVreg d (f va vb))) h <;> cases h
  · exact hs.raised _
  · exact hs.raised _
  · have hnw := hf (Vec.nw_eq_of_size_eq hsize)
    exact (hs.setVreg d (Vec.wf_of_nw_eq (hs.vectors a va ha) hnw)).clearErr

theorem execVand_keeps_inv {d a b : VReg} (hs : s.Inv) (h : execVand d a b s = .next t) :
    t.Inv :=
  binary_keeps_inv nw_vand hs h

theorem execVor_keeps_inv {d a b : VReg} (hs : s.Inv) (h : execVor d a b s = .next t) :
    t.Inv :=
  binary_keeps_inv nw_vor hs h

theorem execVeq_keeps_inv {a b : VReg} (hs : s.Inv) (h : execVeq a b s = .next t) : t.Inv := by
  obtain ⟨-, h⟩ | ⟨va, vb, -, -, h⟩ := execVeq_cases h <;> cases h
  · exact hs.raised _
  · exact hs.succeedResult _

/-- The shape VXZ and VXW share: a window of a size that the checks accept. -/
theorem window_keeps_inv {d a : VReg} {f : Vec → Nat → Vec} (hf : ∀ v n, (f v n).nw = n / 32)
    (hs : s.Inv)
    (h : (needVec a s fun v => needSize s.windowArg .invalidWindowSize s fun n =>
      succeed (s.setVreg d (f v n))) = .next t) : t.Inv := by
  obtain ⟨-, h⟩ | ⟨v, -, ⟨-, h⟩ | ⟨-, -, h⟩ | ⟨hn, hb, h⟩⟩ := window_cases h <;> cases h
  · exact hs.raised _
  · exact hs.raised _
  · exact hs.raised _
  · exact (hs.setVreg d (Vec.wf_of_sizeOK hn hb (hf v _))).clearErr

theorem execVxz_keeps_inv {d a : VReg} (hs : s.Inv) (h : execVxz d a s = .next t) : t.Inv :=
  window_keeps_inv (fun v n => nw_extractZ v s.startArg n) hs h

theorem execVxw_keeps_inv {d a : VReg} (hs : s.Inv) (h : execVxw d a s = .next t) : t.Inv :=
  window_keeps_inv (fun v n => nw_extractW v s.startArg n) hs h

theorem execBnew_keeps_inv (hs : s.Inv) (h : execBnew s = .next t) : t.Inv := by
  obtain ⟨-, h⟩ | ⟨-, -, h⟩ | ⟨hn, hb, h⟩ := execBnew_cases h <;> cases h
  · exact hs.raised _
  · exact hs.raised _
  · exact hs.succeedBuilder (Builder.wf_opened_of_sizeOK hn hb)

theorem execBset_keeps_inv (hs : s.Inv) (h : execBset s = .next t) : t.Inv := by
  obtain ⟨-, h⟩ | ⟨-, h⟩ | ⟨ho, ⟨-, h⟩ | ⟨-, -, ⟨-, h⟩ | ⟨-, h⟩⟩⟩ := execBset_cases h <;> cases h
  · exact hs.raised _
  · exact hs.raised _
  · exact hs.raised _
  · exact hs.raised _
  · exact hs.succeedBuilder (Builder.wf_setByte ho hs.builder _ _)

theorem execBbuild_keeps_inv {d : VReg} (hs : s.Inv) (h : execBbuild d s = .next t) : t.Inv := by
  obtain ⟨-, h⟩ | ⟨-, h⟩ | ⟨ho, h⟩ := execBbuild_cases h <;> cases h
  · exact hs.raised _
  · exact hs.raised _
  · have hd := hs.setVreg d (Vec.wf_pack ho hs.builder)
    exact hd.succeedBuilder (Builder.wf_consume ho hs.builder)

theorem execVrdw_keeps_inv {a : VReg} (hs : s.Inv) (h : execVrdw a s = .next t) : t.Inv := by
  obtain ⟨-, h⟩ | ⟨v, -, ⟨-, h⟩ | ⟨-, -, h⟩⟩ := execVrdw_cases h <;> cases h
  · exact hs.raised _
  · exact hs.raised _
  · exact hs.succeedResult _

theorem execNop_keeps_inv (hs : s.Inv) (h : execNop s = .next t) : t.Inv := by
  cases (execNop_eq s).symm.trans h
  exact hs.clearErr

theorem exec_keeps_inv {i : Instr} (hs : s.Inv) (h : exec i s = .next t) : t.Inv :=
  match i with
  | .nop        => execNop_keeps_inv hs h
  | .vfill _    => execVfill_keeps_inv hs h
  | .vsize _    => execVsize_keeps_inv hs h
  | .vnot _ _   => execVnot_keeps_inv hs h
  | .vand _ _ _ => execVand_keeps_inv hs h
  | .vor _ _ _  => execVor_keeps_inv hs h
  | .veq _ _    => execVeq_keeps_inv hs h
  | .vxz _ _    => execVxz_keeps_inv hs h
  | .vxw _ _    => execVxw_keeps_inv hs h
  | .bnew       => execBnew_keeps_inv hs h
  | .bset       => execBset_keeps_inv hs h
  | .bbuild _   => execBbuild_keeps_inv hs h
  | .vrdw _     => execVrdw_keeps_inv hs h

/-! ## The invariant under each host event -/

theorem serve_keeps_inv {e : HostEvent} (hs : s.Inv) (h : serve e s = .next t) : t.Inv := by
  obtain ⟨-, rfl⟩ | ⟨_, _, r, -, -, rfl⟩ | ⟨_, _, x, -, hw⟩ := serve_cases h
  · exact (State.inv_resetWith hs.config).withHost s.host
  · exact hs.transfer rfl rfl rfl hs.sticky
  · obtain ⟨-, rfl⟩ | ⟨-, rfl⟩ | ⟨-, ⟨i, -, hi⟩ | ⟨err, -, rfl⟩⟩ := hw
    · exact hs.transfer rfl rfl rfl hs.sticky
    · exact hs.transfer rfl rfl rfl hs.sticky
    · exact exec_keeps_inv (hs.withCmd x) hi
    · exact (hs.withCmd x).raised _

end Sys2Proof.Machine

open Sys2Proof.Machine

/-- Settles O42: a step is idle or serves the oldest event, and every host event keeps the invariant,
a command by the case of its instruction. -/
theorem stepKeepsTheInvariant : Obligations.StepKeepsTheInvariant := by
  intro s t hs h
  obtain ⟨-, rfl⟩ | ⟨e, es, -, he⟩ := step_cases h
  · exact hs
  · exact serve_keeps_inv (hs.withHost es) he

end

section
/-! The bytes of a builder that is not open are never observed (spec/10_state.md R31;
spec/93_implementation_defined.md I2): `State.SameVisible` is kept by every shared operation, every
command, every host event and every run, and the two sides stop alike. -/

namespace Sys2Proof.Machine

variable {s t : State} {k k' : Out}

/-! ## The relation on states and on answers -/

/-- An open builder's bytes are visible: the two states are one. -/
theorem State.SameVisible.eq_of_opened (h : s.SameVisible t) (ho : s.builder.state = .opened) :
    s = t := by
  obtain ⟨bytes, rfl, hbytes⟩ := h
  rw [hbytes ho]

theorem State.SameVisible.builder_state_eq (h : s.SameVisible t) :
    s.builder.state = t.builder.state := by
  obtain ⟨bytes, rfl, -⟩ := h
  rfl

theorem State.SameVisible.config_eq (h : s.SameVisible t) : s.config = t.config := by
  obtain ⟨bytes, rfl, -⟩ := h
  rfl

theorem State.SameVisible.vr_eq (h : s.SameVisible t) : s.vr = t.vr := by
  obtain ⟨bytes, rfl, -⟩ := h
  rfl

theorem State.SameVisible.readData_eq (h : s.SameVisible t) : s.readData = t.readData := by
  obtain ⟨bytes, rfl, -⟩ := h
  rfl

theorem State.SameVisible.host_eq (h : s.SameVisible t) : s.host = t.host := by
  obtain ⟨bytes, rfl, -⟩ := h
  rfl

theorem State.SameVisible.readReg_eq (h : s.SameVisible t) (r : Reg) :
    s.readReg r = t.readReg r := by
  obtain ⟨bytes, rfl, -⟩ := h
  cases r <;> rfl

/-- Two answers no host tells apart: next states of one visible part, or the same refusal. -/
inductive SameAnswer : Out → Out → Prop
  | next {s t : State} (h : s.SameVisible t) : SameAnswer (.next s) (.next t)
  | refused (r : Refusal) : SameAnswer (.refused r) (.refused r)

theorem SameAnswer.refl : (o : Out) → SameAnswer o o
  | .next s    => .next (.refl s)
  | .refused r => .refused r

/-! ## The shared operations -/

theorem raise_same (h : s.SameVisible t) (e : ErrKind) : SameAnswer (raise e s) (raise e t) := by
  obtain ⟨bytes, rfl, hbytes⟩ := h
  exact .next ⟨bytes, rfl, hbytes⟩

theorem check_same {ok : Bool} {e : ErrKind} (h : s.SameVisible t) (hk : SameAnswer k k') :
    SameAnswer (check ok e s k) (check ok e t k') := by
  cases ok
  · exact raise_same h e
  · exact hk

theorem needVec_same {r : VReg} {k k' : Vec → Out} (h : s.SameVisible t)
    (hk : ∀ v, SameAnswer (k v) (k' v)) : SameAnswer (needVec r s k) (needVec r t k') := by
  have hr : s.vreg r = t.vreg r := State.vreg_congr h.vr_eq r
  cases ht : t.vreg r with
  | none =>
    rw [needVec_none (hr.trans ht), needVec_none ht]
    exact raise_same h _
  | some v =>
    rw [needVec_some (hr.trans ht), needVec_some ht]
    exact hk v

theorem needSize_same {n : Int} {e : ErrKind} {k k' : Nat → Out} (h : s.SameVisible t)
    (hk : ∀ m, SameAnswer (k m) (k' m)) : SameAnswer (needSize n e s k) (needSize n e t k') := by
  unfold needSize
  rw [h.config_eq]
  exact check_same h (check_same h (hk _))

theorem needIndex_same {i : Int} {bound : Nat} {k k' : Nat → Out} (h : s.SameVisible t)
    (hk : ∀ m, SameAnswer (k m) (k' m)) :
    SameAnswer (needIndex i bound s k) (needIndex i bound t k') :=
  check_same h (hk _)

theorem needOpen_idle (h : s.builder.state = .idle) :
    needOpen s k = .next (s.raised .noBuilder) := by simp [needOpen, h, raise_eq]

theorem needOpen_consumed (h : s.builder.state = .consumed) :
    needOpen s k = .next (s.raised .alreadyBuilt) := by simp [needOpen, h, raise_eq]

/-- With no open builder the builder-state checks raise the same error on both sides. -/
theorem needOpen_same (h : s.SameVisible t) (ho : s.builder.state ≠ .opened) :
    SameAnswer (needOpen s k) (needOpen t k') := by
  have ht := h.builder_state_eq
  cases hs : s.builder.state with
  | idle =>
    rw [needOpen_idle hs, needOpen_idle (ht ▸ hs)]
    exact raise_same h _
  | consumed =>
    rw [needOpen_consumed hs, needOpen_consumed (ht ▸ hs)]
    exact raise_same h _
  | opened => exact absurd hs ho

/-! ## Commands, host events, steps, runs -/

/-- If the builder is open the states are one. If not, every command reads only what both share, so both
sides take the same checks and make the same update. -/
theorem exec_same (h : s.SameVisible t) (i : Instr) : SameAnswer (exec i s) (exec i t) := by
  by_cases ho : s.builder.state = .opened
  · rw [h.eq_of_opened ho]
    exact .refl _
  have ⟨bytes, ht, hbytes⟩ := h
  subst ht
  cases i with
  | nop => exact .next ⟨bytes, rfl, hbytes⟩
  | vfill =>
    simp only [exec, execVfill]
    exact needSize_same h fun n => check_same h (.next ⟨bytes, rfl, hbytes⟩)
  | vsize | vnot => exact needVec_same h fun v => .next ⟨bytes, rfl, hbytes⟩
  | vand | vor =>
    exact needVec_same h fun v => needVec_same h fun w => check_same h (.next ⟨bytes, rfl, hbytes⟩)
  | veq => exact needVec_same h fun v => needVec_same h fun w => .next ⟨bytes, rfl, hbytes⟩
  | vxz | vxw => exact needVec_same h fun v => needSize_same h fun n => .next ⟨bytes, rfl, hbytes⟩
  | bnew =>
    simp only [exec, execBnew]
    exact needSize_same h fun n => .refl _
  | bset | bbuild => exact needOpen_same h ho
  | vrdw => exact needVec_same h fun v => needIndex_same h fun k => .next ⟨bytes, rfl, hbytes⟩

theorem runCommand_same (h : s.SameVisible t) (x : Word) :
    SameAnswer (runCommand x s) (runCommand x t) := by
  obtain ⟨bytes, rfl, hbytes⟩ := h
  have hcmd : State.SameVisible { s with cmd := x } _ := ⟨bytes, rfl, hbytes⟩
  cases hx : decode x with
  | ok i =>
    rw [runCommand_ok hx, runCommand_ok hx]
    exact exec_same hcmd i
  | error err =>
    rw [runCommand_error hx, runCommand_error hx]
    exact raise_same hcmd .illegalCommand

theorem writeReg_same (h : s.SameVisible t) (r : Reg) (x : Word) :
    SameAnswer (writeReg r x s) (writeReg r x t) := by
  have ⟨bytes, ht, hbytes⟩ := h
  subst ht
  cases r with
  | cmd  => exact runCommand_same h x
  | arg0 => exact .next ⟨bytes, rfl, hbytes⟩
  | arg1 => exact .next ⟨bytes, rfl, hbytes⟩
  | result | status | maxwords | bldsize | vrvalid => exact .refused _

theorem serve_same (h : s.SameVisible t) (e : HostEvent) :
    SameAnswer (serve e s) (serve e t) := by
  cases e with
  | reset =>
    simp only [serve, h.config_eq, h.host_eq]
    exact .refl _
  | read addr width =>
    simp only [serve, h.config_eq, h.readReg_eq]
    obtain ⟨bytes, rfl, hbytes⟩ := h
    split
    · exact .refused _
    · exact .next ⟨bytes, rfl, hbytes⟩
  | write addr width x =>
    simp only [serve, h.config_eq]
    split
    · exact .refused _
    · exact writeReg_same h _ x

theorem step_same (h : s.SameVisible t) : SameAnswer (step s) (step t) := by
  cases hs : s.host with
  | nil =>
    rw [step_nil hs, step_nil (h.host_eq ▸ hs)]
    exact .next h
  | cons e es =>
    rw [step_cons hs, step_cons (h.host_eq ▸ hs)]
    obtain ⟨bytes, rfl, hbytes⟩ := h
    have hes : State.SameVisible { s with host := es } _ := ⟨bytes, rfl, hbytes⟩
    exact serve_same hes e

theorem run_succ_refused {r : Refusal} (h : step s = .refused r) (n : Nat) :
    Host.Core.run core (n + 1) s = .refused r := by
  have hcore : core.step s = .refused r := h
  simp [Host.Core.run, hcore]

theorem run_same (n : Nat) (h : s.SameVisible t) :
    SameAnswer (Host.Core.run core n s) (Host.Core.run core n t) := by
  induction n generalizing s t with
  | zero => exact .next h
  | succ n ih =>
    have hstep := step_same h
    generalize hs : step s = a at hstep
    generalize ht : step t = b at hstep
    cases hstep with
    | next h' =>
      rw [run_succ_next hs, run_succ_next ht]
      exact ih h'
    | refused r =>
      rw [run_succ_refused hs, run_succ_refused ht]
      exact .refused r

end Sys2Proof.Machine

open Sys2Proof.Machine

/-- Settles O53: runs keep `State.SameVisible` and stop alike (`run_same`, by induction on the number of
steps), and all a host can read is a function of the visible part. -/
theorem hiddenBytesAreNeverObserved : Obligations.HiddenBytesAreNeverObserved := by
  intro k s t h
  have hrun := run_same k h
  generalize Host.Core.run Sys2Proof.core k s = a at hrun ⊢
  generalize Host.Core.run Sys2Proof.core k t = b at hrun ⊢
  cases hrun with
  | next h'   => exact ⟨h', h'.vr_eq, h'.readData_eq, h'.readReg_eq⟩
  | refused r => rfl

end

section
/-! What a command that answers a next state has done to the state, one constructor a kind of update
(spec/10_state.md R17, R18, R30), and what follows for a step: the parameters stand, a vector register
changes only as a destination, a consumed builder stays. -/

namespace Sys2Proof

/-- The commands whose destination is `VR[r]` (R52, R18). -/
def Instr.WritesVreg (i : Instr) (r : VReg) : Prop :=
  i = .vfill r ∨ (∃ a, i = .vnot r a ∨ i = .vxz r a ∨ i = .vxw r a) ∨
    (∃ a b, i = .vand r a b ∨ i = .vor r a b) ∨ i = .bbuild r

/-- The commands that write `RESULT` (R93). -/
def Instr.WritesResult (i : Instr) : Prop :=
  (∃ a, i = .vsize a ∨ i = .vrdw a) ∨ ∃ a b, i = .veq a b

end Sys2Proof

namespace Sys2Proof.Machine

variable {s t : State} {i : Instr}

/-! ## The effect of a command -/

/-- All that a command can do: raise an error, which changes the two error fields only (R99), or
succeed with the one update that its kind makes. -/
inductive CommandEffect (s : State) : Instr → State → Prop
  | raises (i : Instr) (e : ErrKind) : CommandEffect s i (s.raised e)
  | idles : CommandEffect s .nop { s with err := none }
  | writesResult {i : Instr} (w : Word) (hi : i.WritesResult) :
      CommandEffect s i { s with result := w, err := none }
  | writesVreg {i : Instr} {d : VReg} (v : Vec) (hi : i.WritesVreg d) :
      CommandEffect s i { s.setVreg d v with err := none }
  | opensBuilder (n : Nat) : CommandEffect s .bnew
      { s with builder := ⟨.opened, n, List.replicate (n / 8) 0⟩, err := none }
  | setsByte (k : Nat) (x : Byte) (ho : s.builder.state = .opened) : CommandEffect s .bset
      { s with builder := { s.builder with bytes := s.builder.bytes.set k x }, err := none }
  | consumesBuilder (d : VReg) (ho : s.builder.state = .opened) : CommandEffect s (.bbuild d)
      { s.setVreg d (pack s.builder.size s.builder.bytes) with
        builder := { s.builder with state := .consumed }, err := none }

theorem exec_effect (h : exec i s = .next t) : CommandEffect s i t := by
  cases i with
  | nop =>
    cases (execNop_eq s).symm.trans h
    exact .idles
  | vfill d =>
    obtain ⟨-, h⟩ | ⟨-, -, h⟩ | ⟨-, -, -, h⟩ | ⟨-, -, -, h⟩ := execVfill_cases h <;> cases h
    · exact .raises _ _
    · exact .raises _ _
    · exact .raises _ _
    · exact .writesVreg _ (.inl rfl)
  | vsize a =>
    obtain ⟨-, h⟩ | ⟨v, -, h⟩ := execVsize_cases h <;> cases h
    · exact .raises _ _
    · exact .writesResult _ (.inl ⟨a, .inl rfl⟩)
  | vnot d a =>
    obtain ⟨-, h⟩ | ⟨v, -, h⟩ := execVnot_cases h <;> cases h
    · exact .raises _ _
    · exact .writesVreg _ (.inr (.inl ⟨a, .inl rfl⟩))
  | vand d a b =>
    obtain ⟨-, h⟩ | ⟨v, w, -, -, ⟨-, h⟩ | ⟨-, h⟩⟩ := execVand_cases h <;> cases h
    · exact .raises _ _
    · exact .raises _ _
    · exact .writesVreg _ (.inr (.inr (.inl ⟨a, b, .inl rfl⟩)))
  | vor d a b =>
    obtain ⟨-, h⟩ | ⟨v, w, -, -, ⟨-, h⟩ | ⟨-, h⟩⟩ := execVor_cases h <;> cases h
    · exact .raises _ _
    · exact .raises _ _
    · exact .writesVreg _ (.inr (.inr (.inl ⟨a, b, .inr rfl⟩)))
  | veq a b =>
    obtain ⟨-, h⟩ | ⟨v, w, -, -, h⟩ := execVeq_cases h <;> cases h
    · exact .raises _ _
    · exact .writesResult _ (.inr ⟨a, b, rfl⟩)
  | vxz d a =>
    obtain ⟨-, h⟩ | ⟨v, -, ⟨-, h⟩ | ⟨-, -, h⟩ | ⟨-, -, h⟩⟩ := execVxz_cases h <;> cases h
    · exact .raises _ _
    · exact .raises _ _
    · exact .raises _ _
    · exact .writesVreg _ (.inr (.inl ⟨a, .inr (.inl rfl)⟩))
  | vxw d a =>
    obtain ⟨-, h⟩ | ⟨v, -, ⟨-, h⟩ | ⟨-, -, h⟩ | ⟨-, -, h⟩⟩ := execVxw_cases h <;> cases h
    · exact .raises _ _
    · exact .raises _ _
    · exact .raises _ _
    · exact .writesVreg _ (.inr (.inl ⟨a, .inr (.inr rfl)⟩))
  | bnew =>
    obtain ⟨-, h⟩ | ⟨-, -, h⟩ | ⟨-, -, h⟩ := execBnew_cases h <;> cases h
    · exact .raises _ _
    · exact .raises _ _
    · exact .opensBuilder _
  | bset =>
    obtain ⟨-, h⟩ | ⟨-, h⟩ | ⟨ho, ⟨-, h⟩ | ⟨-, -, ⟨-, h⟩ | ⟨-, h⟩⟩⟩ := execBset_cases h <;> cases h
    · exact .raises _ _
    · exact .raises _ _
    · exact .raises _ _
    · exact .raises _ _
    · exact .setsByte _ _ ho
  | bbuild d =>
    obtain ⟨-, h⟩ | ⟨-, h⟩ | ⟨ho, h⟩ := execBbuild_cases h <;> cases h
    · exact .raises _ _
    · exact .raises _ _
    · exact .consumesBuilder d ho
  | vrdw a =>
    obtain ⟨-, h⟩ | ⟨v, -, ⟨-, h⟩ | ⟨-, -, h⟩⟩ := execVrdw_cases h <;> cases h
    · exact .raises _ _
    · exact .raises _ _
    · exact .writesResult _ (.inl ⟨a, .inr rfl⟩)

/-! ## What a command leaves as it was -/

theorem CommandEffect.config_eq (h : CommandEffect s i t) : t.config = s.config := by
  cases h <;> rfl

/-- R18: a destination becomes valid, and every other vector register stays. -/
theorem CommandEffect.vreg_cases (h : CommandEffect s i t) (r : VReg) :
    t.vreg r = s.vreg r ∨ (i.WritesVreg r ∧ t.err = none ∧ ∃ v, t.vreg r = some v) := by
  cases h with
  | raises | idles | writesResult | opensBuilder | setsByte => exact .inl rfl
  | @writesVreg _ d v hi =>
    by_cases hr : d = r
    · subst hr
      exact .inr ⟨hi, rfl, v, s.vreg_setVreg_same d v⟩
    · exact .inl (s.vreg_setVreg_ne d r v hr)
  | consumesBuilder d ho =>
    by_cases hr : d = r
    · subst hr
      exact .inr ⟨.inr (.inr (.inr rfl)), rfl, _, s.vreg_setVreg_same d _⟩
    · exact .inl (s.vreg_setVreg_ne d r _ hr)

/-- R30: BSET and BBUILD succeed on an open builder only. -/
theorem CommandEffect.builder_eq_of_consumed (h : CommandEffect s i t)
    (hc : s.builder.state = .consumed) : t.builder = s.builder ∨ i = .bnew := by
  cases h with
  | raises | idles | writesResult | writesVreg => exact .inl rfl
  | opensBuilder n => exact .inr rfl
  | setsByte _ _ ho | consumesBuilder _ ho => exact absurd (hc.symm.trans ho) (by decide)

/-! ## The effect of a step -/

/-- A step is the reset, or it runs a command on the state that holds the written word, or it leaves the
parameters, the vector registers and the builder as they were. -/
theorem step_effect (h : step s = .next t) :
    (s.host.head? = some .reset ∧ ∃ es, t = { State.resetWith s.config with host := es }) ∨
    (∃ addr width x es i, s.host.head? = some (.write addr width x) ∧ decode x = .ok i ∧
      CommandEffect { s with host := es, cmd := x } i t) ∨
    (t.config = s.config ∧ t.vr = s.vr ∧ t.builder = s.builder) := by
  obtain ⟨-, rfl⟩ | ⟨e, es, hhost, he⟩ := step_cases h
  · exact .inr (.inr ⟨rfl, rfl, rfl⟩)
  have hhead : s.host.head? = some e := by rw [hhost, List.head?_cons]
  obtain ⟨rfl, rfl⟩ | ⟨_, _, r, -, -, rfl⟩ | ⟨addr, width, x, rfl, hw⟩ := serve_cases he
  · exact .inl ⟨hhead, es, rfl⟩
  · exact .inr (.inr ⟨rfl, rfl, rfl⟩)
  · obtain ⟨-, rfl⟩ | ⟨-, rfl⟩ | ⟨-, ⟨i, hi, hx⟩ | ⟨err, -, rfl⟩⟩ := hw
    · exact .inr (.inr ⟨rfl, rfl, rfl⟩)
    · exact .inr (.inr ⟨rfl, rfl, rfl⟩)
    · exact .inr (.inl ⟨addr, width, x, es, i, hhead, hi, exec_effect hx⟩)
    · exact .inr (.inr ⟨rfl, rfl, rfl⟩)

/-- R32: no step changes the parameters. -/
theorem step_config (h : step s = .next t) : t.config = s.config := by
  obtain ⟨-, es, rfl⟩ | ⟨_, _, x, es, i, -, -, hi⟩ | ⟨hc, -, -⟩ := step_effect h
  · rfl
  · exact hi.config_eq
  · exact hc

end Sys2Proof.Machine

open Sys2Proof.Machine

/-- Settles O49: outside a reset a step changes vector registers by a command only, and a command only
its destination, which becomes valid (`CommandEffect.vreg_cases`). -/
theorem vectorRegistersChangeOnlyAsListed : Obligations.VectorRegistersChangeOnlyAsListed := by
  intro s t r h hne
  obtain ⟨hhead, es, rfl⟩ | ⟨addr, width, x, es, i, hhead, hx, hi⟩ | ⟨-, hvr, -⟩ := step_effect h
  · exact .inl ⟨hhead, State.vreg_resetWith s.config r⟩
  · obtain hr | ⟨hw, herr, hv⟩ := hi.vreg_cases r
    · exact absurd hr hne
    · exact .inr ⟨addr, width, x, i, hhead, hx, hw, herr, hv⟩
  · exact absurd (State.vreg_congr hvr r) hne

/-- Settles O51: outside a reset a step changes the builder by a command only, and a consumed one only
by BNEW (`CommandEffect.builder_eq_of_consumed`); BSET and BBUILD stop at the builder-state check. -/
theorem consumedBuilderIsFinal : Obligations.ConsumedBuilderIsFinal := by
  intro s hs
  refine ⟨fun t h => ?_, needOpen_consumed hs, fun d => needOpen_consumed hs⟩
  obtain ⟨hhead, -⟩ | ⟨addr, width, x, es, i, hhead, hx, hi⟩ | ⟨-, -, hb⟩ := step_effect h
  · exact .inr (.inl hhead)
  · obtain hb | rfl := hi.builder_eq_of_consumed hs
    · exact .inl hb
    · exact .inr (.inr ⟨addr, width, x, hhead, hx⟩)
  · exact .inl hb

end

section
/-! The read-only registers of the window as functions of the state (spec/10_state.md R25, R27, R28). -/

namespace Sys2Proof.Machine

variable {s : State}

/-- R28. -/
theorem getLsbD_vrvalidWord (s : State) (i : Nat) :
    s.vrvalidWord.getLsbD i = true ↔ ∃ r : VReg, r.val = i ∧ ∃ v, s.vreg r = some v := by
  rw [State.vrvalidWord, getLsbD_wordOfBits, Bool.and_eq_true, decide_eq_true_eq]
  by_cases hi : i < 16
  · have hr : ∀ r : VReg, r.val = i → s.vr[i]?.getD none = s.vreg r := by
      rintro r rfl
      simp [State.vreg]
    rw [hr ⟨i, hi⟩ rfl, Option.isSome_iff_exists]
    constructor
    · rintro ⟨-, hv⟩
      exact ⟨⟨i, hi⟩, rfl, hv⟩
    · rintro ⟨r, rfl, hv⟩
      exact ⟨by omega, hv⟩
  · have hnone : s.vr[i]? = none := Vector.getElem?_eq_none (by omega)
    constructor
    · rintro ⟨-, hv⟩
      simp [hnone] at hv
    · rintro ⟨r, rfl, -⟩
      exact absurd r.isLt hi

/-- Legal parameters fit the word of `MAXWORDS` (R6, R25). -/
theorem State.Inv.toNat_maxwordsWord (hs : s.Inv) : s.maxwordsWord.toNat = s.config.maxWords := by
  have hc := (Config.wf_iff _).mp hs.config
  rw [State.maxwordsWord, BitVec.toNat_ofNat, Nat.mod_eq_of_lt (by omega)]

/-- R29, R33: `B.size` is at most `MAX_BITS`. -/
theorem State.Inv.builder_size_le (hs : s.Inv) : s.builder.size ≤ 32 * s.config.maxWords := by
  have hb := hs.builder
  by_cases hi : s.builder.state = .idle
  · rw [Builder.wf_idle hi] at hb
    omega
  · rw [Builder.wf_made hi] at hb
    omega

/-- A legal builder's size fits the word of `BLDSIZE` (R27, R33). -/
theorem State.Inv.toNat_bldsizeWord (hs : s.Inv) : s.bldsizeWord.toNat = s.builder.size := by
  have hc := (Config.wf_iff _).mp hs.config
  have hb := hs.builder_size_le
  rw [State.bldsizeWord, BitVec.toNat_ofNat, Nat.mod_eq_of_lt (by omega)]

theorem State.Inv.bldsizeWord_of_idle (hs : s.Inv) (hi : s.builder.state = .idle) :
    s.bldsizeWord = 0 := by
  rw [State.bldsizeWord, (Builder.wf_idle hi).mp hs.builder]
  rfl

theorem vrvalidWord_resetWith (c : Config) : (State.resetWith c).vrvalidWord = 0 := by
  refine BitVec.eq_of_getLsbD_eq fun i _ => Bool.eq_iff_iff.mpr ?_
  rw [getLsbD_vrvalidWord]
  simp

end Sys2Proof.Machine

open Sys2Proof.Machine

/-- Settles O22: each read-only register as a view of the state, and no step changes the parameters. -/
theorem readOnlyRegistersMirrorTheState : Obligations.ReadOnlyRegistersMirrorTheState := by
  intro s
  refine ⟨getLsbD_vrvalidWord s, fun hs => ⟨hs.toNat_maxwordsWord, hs.toNat_bldsizeWord,
    hs.bldsizeWord_of_idle⟩, fun t h => ?_, fun c => ⟨vrvalidWord_resetWith c, rfl, rfl⟩⟩
  simp only [State.readReg, State.maxwordsWord, step_config h]

end

section
/-! The canonical string form (spec/10_state.md R16): its characters, and that it determines the
vector. -/

namespace Sys2Proof.Machine

/-- R16: the character at position `p` shows bit `v.size - 1 - p`. -/
theorem getElem?_render {v : Vec} {p : Nat} (h : p < v.size) :
    (render v)[p]? = some (if v.bit (v.size - 1 - p) then '1' else '0') := by
  simp [render, h]

theorem bitChar_injective {a b : Bool} (h : (if a then '1' else '0') = if b then '1' else '0') :
    a = b := by
  revert a b
  decide

/-- R16: the length gives the size, and position `v.size - 1 - i` gives bit `i`. -/
theorem render_injective {v w : Vec} (h : render v = render w) : v = w := by
  have hsize : v.size = w.size := by rw [← length_render, h, length_render]
  refine Vec.ext_bit hsize fun i hi => bitChar_injective ?_
  have hp : v.size - 1 - i < v.size := by omega
  have hchar := getElem?_render hp
  rw [h, hsize, getElem?_render (hsize ▸ hp), Option.some_inj] at hchar
  have hback : w.size - 1 - (w.size - 1 - i) = i := by omega
  rw [hback] at hchar
  exact hchar.symm

end Sys2Proof.Machine

open Sys2Proof.Machine

/-- Settles O36. -/
theorem renderShowsTheBitsMostSignificantFirst :
    Obligations.RenderShowsTheBitsMostSignificantFirst :=
  fun v => ⟨length_render v, fun _ => getElem?_render, fun _ => render_injective⟩

end

section
/-! The bus: what one access answers (spec/20_memory.md R34 to R40, R45). -/

namespace Sys2Proof.Machine

variable {s : State} {e : HostEvent} {es : List HostEvent} {r : Reg} {x : Word} {addr width off : Nat}

/-! ## One event -/

theorem serve_read (h : busTarget s.config addr width = .ok r) :
    serve (.read addr width) s = .next { s with readData := some (s.readReg r) } := by
  simp only [serve, h]

theorem serve_read_refused {p : Refusal} (h : busTarget s.config addr width = .error p) :
    serve (.read addr width) s = .refused p := by
  simp only [serve, h]

theorem serve_write (h : busTarget s.config addr width = .ok r) :
    serve (.write addr width x) s = writeReg r x s := by
  simp only [serve, h]

theorem serve_write_refused {p : Refusal} (h : busTarget s.config addr width = .error p) :
    serve (.write addr width x) s = .refused p := by
  simp only [serve, h]

theorem HostEvent.accepted_read_iff {c : Config} :
    (HostEvent.read addr width).accepted c = true ↔ ∃ r, busTarget c addr width = .ok r := by
  cases h : busTarget c addr width <;> simp [HostEvent.accepted, h]

theorem HostEvent.accepted_write_iff {c : Config} :
    (HostEvent.write addr width x).accepted c = true ↔
      ∃ r, busTarget c addr width = .ok r ∧ r.writable = true := by
  cases h : busTarget c addr width <;> simp [HostEvent.accepted, h]

/-- R38. -/
theorem writeReg_readOnly (h : r.writable = false) : writeReg r x s = .refused .busErrorReadOnly := by
  cases r with
  | cmd | arg0 | arg1 => cases h
  | result | status | maxwords | bldsize | vrvalid => rfl

/-! ## A step whose oldest event is an access to a register -/

/-- Neither the queue nor the word last read is a register of the window. -/
theorem State.readReg_host_readData (s : State) (es : List HostEvent) (w : Option Word) (r : Reg) :
    { s with host := es, readData := w }.readReg r = s.readReg r := by
  cases r <;> rfl

theorem step_read {w : Word} (h : s.host = .read (s.config.base + r.offset) 4 :: es)
    (hw : s.readReg r = w) : step s = .next { s with host := es, readData := some w } := by
  have hserve := serve_read (s := { s with host := es }) (busTarget_offset s.config r)
  rw [State.readReg_host_readData s es, hw] at hserve
  exact (step_cons h).trans hserve

theorem step_write (h : s.host = .write (s.config.base + r.offset) 4 x :: es) :
    step s = writeReg r x { s with host := es } :=
  (step_cons h).trans (serve_write (busTarget_offset s.config r))

/-! ## The offsets of the window -/

/-- The registers of the window, in the order of R34. -/
def Reg.all : List Reg := [.cmd, .arg0, .arg1, .result, .status, .maxwords, .bldsize, .vrvalid]

/-- R34: every aligned offset of the window is that of a register. -/
theorem Reg.offset_ofOffset (hoff : off < 32) (h4 : off % 4 = 0) : (Reg.ofOffset off).offset = off := by
  have hword : ∀ k < 8, (Reg.ofOffset (4 * k)).offset = 4 * k := by decide
  have hk : 4 * (off / 4) = off := by omega
  have := hword (off / 4) (by omega)
  rwa [hk] at this

/-- R38: the read-only registers stand at these offsets. -/
theorem Reg.readOnly_of_offset : ∀ off ∈ [0x0C, 0x10, 0x14, 0x18, 0x1C],
    ∃ r : Reg, r.offset = off ∧ r.writable = false := by
  have hof : ∀ off ∈ [0x0C, 0x10, 0x14, 0x18, 0x1C],
      (Reg.ofOffset off).offset = off ∧ (Reg.ofOffset off).writable = false := by decide
  exact fun off h => ⟨Reg.ofOffset off, hof off h⟩

theorem busTarget_in_window {c : Config} (hoff : off < 32) :
    busTarget c (c.base + off) width =
      if width ≠ 4 then .error .busErrorWidth
      else if off % 4 ≠ 0 then .error .busErrorMisaligned
      else .ok (Reg.ofOffset off) := by
  have hin : ¬ (c.base + off < c.base ∨ c.base + 32 ≤ c.base + off) := by omega
  rw [busTarget, if_neg hin, Nat.add_sub_cancel_left]

/-- R35, R36: the bus errors of a read and of a write alike. -/
theorem busTarget_busError {c : Config} (hoff : off < 32) (h : width ≠ 4 ∨ off % 4 ≠ 0) :
    ∃ p, busTarget c (c.base + off) width = .error p ∧ (p = .busErrorWidth ∨ p = .busErrorMisaligned) := by
  rw [busTarget_in_window hoff]
  by_cases hw : width = 4
  · have h4 : off % 4 ≠ 0 := h.resolve_left (not_not_intro hw)
    exact ⟨_, by rw [if_neg (not_not_intro hw), if_pos h4], .inr rfl⟩
  · exact ⟨_, if_pos hw, .inl rfl⟩

end Sys2Proof.Machine
end

section
/-! A host that makes only accepted accesses is never stopped (spec/20_memory.md R34 to R38;
spec/70_reset_and_hazards.md R122): every command completes, every accepted event is performed, and a
step takes one event from the queue and keeps the parameters, so the events left are still accepted. -/

namespace Sys2Proof.Machine

variable {s t : State} {k : Out}

/-! ## Every command completes -/

/-- The answer is a next state: neither a fault nor a refusal. -/
def Completes (o : Out) : Prop := ∃ t, o = .next t

theorem next_completes (t : State) : Completes (.next t) := ⟨t, rfl⟩

theorem check_completes {ok : Bool} {e : ErrKind} (hk : Completes k) : Completes (check ok e s k) := by
  cases ok
  · exact next_completes _
  · exact hk

theorem needVec_completes {r : VReg} {k : Vec → Out} (hk : ∀ v, Completes (k v)) :
    Completes (needVec r s k) := by
  cases hr : s.vreg r with
  | none => exact needVec_none hr ▸ next_completes _
  | some v => exact needVec_some hr ▸ hk v

theorem needSize_completes {n : Int} {e : ErrKind} {k : Nat → Out} (hk : ∀ m, Completes (k m)) :
    Completes (needSize n e s k) :=
  check_completes (check_completes (hk _))

theorem needIndex_completes {i : Int} {bound : Nat} {k : Nat → Out} (hk : ∀ m, Completes (k m)) :
    Completes (needIndex i bound s k) :=
  check_completes (hk _)

theorem needOpen_completes (hk : Completes k) : Completes (needOpen s k) := by
  cases hb : s.builder.state with
  | idle => exact needOpen_idle hb ▸ next_completes _
  | consumed => exact needOpen_consumed hb ▸ next_completes _
  | opened => exact needOpen_opened hb ▸ hk

/-- R122: a command is checks, then one update. -/
theorem exec_completes (i : Instr) (s : State) : Completes (exec i s) := by
  cases i with
  | nop => exact next_completes _
  | vfill => exact needSize_completes fun _ => check_completes (next_completes _)
  | vsize | vnot => exact needVec_completes fun _ => next_completes _
  | vand | vor =>
    exact needVec_completes fun _ => needVec_completes fun _ => check_completes (next_completes _)
  | veq => exact needVec_completes fun _ => needVec_completes fun _ => next_completes _
  | vxz | vxw => exact needVec_completes fun _ => needSize_completes fun _ => next_completes _
  | bnew => exact needSize_completes fun _ => next_completes _
  | bset =>
    exact needOpen_completes (needIndex_completes fun _ => check_completes (next_completes _))
  | bbuild => exact needOpen_completes (next_completes _)
  | vrdw => exact needVec_completes fun _ => needIndex_completes fun _ => next_completes _

/-! ## Every accepted event is performed -/

theorem runCommand_completes (x : Word) (s : State) : Completes (runCommand x s) := by
  cases hx : decode x with
  | ok i => exact runCommand_ok hx s ▸ exec_completes i _
  | error err => exact runCommand_error hx s ▸ next_completes _

theorem writeReg_completes {r : Reg} (h : r.writable = true) (x : Word) (s : State) :
    Completes (writeReg r x s) := by
  cases r with
  | cmd => exact runCommand_completes x s
  | arg0 | arg1 => exact next_completes _
  | result | status | maxwords | bldsize | vrvalid => cases h

theorem serve_completes {e : HostEvent} (h : e.accepted s.config = true) : Completes (serve e s) := by
  cases e with
  | reset => exact next_completes _
  | read addr width =>
    obtain ⟨r, hr⟩ := HostEvent.accepted_read_iff.mp h
    exact serve_read hr ▸ next_completes _
  | write addr width x =>
    obtain ⟨r, hr, hw⟩ := HostEvent.accepted_write_iff.mp h
    exact serve_write hr ▸ writeReg_completes hw x s

/-! ## A step takes one event from the queue -/

theorem CommandEffect.host_eq {i : Instr} (h : CommandEffect s i t) : t.host = s.host := by
  cases h <;> rfl

theorem serve_host {e : HostEvent} (h : serve e s = .next t) : t.host = s.host := by
  obtain ⟨-, rfl⟩ | ⟨_, _, r, -, -, rfl⟩ | ⟨_, _, x, -, hw⟩ := serve_cases h
  · rfl
  · rfl
  · obtain ⟨-, rfl⟩ | ⟨-, rfl⟩ | ⟨-, ⟨i, -, hi⟩ | ⟨err, -, rfl⟩⟩ := hw
    · rfl
    · rfl
    · exact (exec_effect hi).host_eq
    · rfl

theorem step_host (h : step s = .next t) : t.host = s.host.tail := by
  obtain ⟨hnil, rfl⟩ | ⟨e, es, hcons, he⟩ := step_cases h
  · rw [hnil, List.tail_nil]
  · rw [serve_host he, hcons, List.tail_cons]

/-! ## Safe states -/

theorem State.Safe.step_completes (hs : s.Safe) : Completes (step s) := by
  cases h : s.host with
  | nil => exact step_nil h ▸ next_completes s
  | cons e es =>
    have he : e.accepted s.config = true := hs e (h ▸ List.mem_cons_self)
    exact step_cons h ▸ serve_completes he

theorem State.Safe.of_step (hs : s.Safe) (h : step s = .next t) : t.Safe := by
  intro e he
  rw [step_host h] at he
  rw [step_config h]
  exact hs e (List.mem_of_mem_tail he)

end Sys2Proof.Machine

open Sys2Proof.Machine

/-- Settles O54, by induction on the number of steps: a safe state steps (`State.Safe.step_completes`)
to a safe state (`State.Safe.of_step`). -/
theorem safeRunsNeverStop : Obligations.SafeRunsNeverStop := by
  intro k
  induction k with
  | zero => exact fun s hs => ⟨s, run_zero s, hs⟩
  | succ k ih =>
    intro s hs
    obtain ⟨t, ht⟩ := hs.step_completes
    rw [run_succ_next ht]
    exact ih t (hs.of_step ht)

end

section
/-! Single accesses: bus errors, commands, reads and writes of the arguments (spec/20_memory.md R35 to
R40, R45). -/

open Sys2Proof Sys2Proof.Machine

/-- Settles O7: the width and alignment checks come before the register, a read-only register refuses
every write, and every aligned offset has a register to read. -/
theorem busErrorsAreRefused : Obligations.BusErrorsAreRefused := by
  intro s off width x e es hhost hoff
  refine ⟨fun hbad he => ?_, fun hro he => ?_, fun h4 he => ?_⟩
  · obtain ⟨p, hp, hname⟩ := busTarget_busError (c := s.config) hoff hbad
    have hstep : step s = .refused p := by
      rw [step_cons hhost]
      obtain rfl | rfl := he
      · exact serve_read_refused hp
      · exact serve_write_refused hp
    obtain rfl | rfl := hname
    · exact .inl hstep
    · exact .inr hstep
  · obtain ⟨r, rfl, hr⟩ := Reg.readOnly_of_offset off hro
    subst he
    rw [step_write hhost, writeReg_readOnly hr]
  · subst he
    rw [← Reg.offset_ofOffset hoff h4] at hhost
    exact ⟨_, step_read hhost rfl⟩

/-- Settles O2: the word reaches `CMD`, at offset 0, which runs what it decodes to. -/
theorem stepRunsTheWrittenCommand : Obligations.StepRunsTheWrittenCommand := by
  intro s x i es hhost hx
  calc step s = runCommand x { s with host := es } := step_write (r := .cmd) hhost
    _ = exec i { s with host := es, cmd := x } := runCommand_ok hx _

/-- Settles O5: the table lists each register's offset and value, and a read leaves every value
(`State.readReg_host_readData`), so that a second read returns the same. -/
theorem readsReturnTheRegister : Obligations.ReadsReturnTheRegister := by
  intro s off w es hhost hentry
  have hmem : (off, w) ∈ Reg.all.map fun r => (r.offset, s.readReg r) := hentry
  obtain ⟨r, -, hr⟩ := List.mem_map.mp hmem
  obtain ⟨rfl, hw⟩ := Prod.mk.inj hr
  refine ⟨step_read hhost hw, fun es' hes => ?_⟩
  have hagain := (s.readReg_host_readData es (some w) r).trans hw
  rw [run_succ_next (step_read hhost hw), run_succ_next (step_read hes hagain), run_zero]

/-- Settles O6: `writeReg` at the two argument registers, and storing a word twice stores it once. -/
theorem argumentWritesOnlyStore : Obligations.ArgumentWritesOnlyStore := by
  intro s x es
  refine ⟨step_write (r := .arg0), step_write (r := .arg1), ?_⟩
  rintro off (rfl | rfl) hhost
  · rw [run_succ_next (step_write (r := .arg0) hhost), run_succ_next (step_write (r := .arg0) rfl),
      step_write (r := .arg0) rfl]
    rfl
  · rw [run_succ_next (step_write (r := .arg1) hhost), run_succ_next (step_write (r := .arg1) rfl),
      step_write (r := .arg1) rfl]
    rfl

end

section
/-! The opcode table by fields: row `n` matches exactly the words whose reserved bits are zero, whose
opcode is `n` and whose unused fields are zero (spec/30_encoding.md R50, R52 to R55). -/

namespace Sys2Proof

theorem Cmd.toWord_injective {c c' : Cmd} (h : c.toWord = c'.toWord) : c = c' := by
  rw [← Cmd.ofWord_toWord c, h, Cmd.ofWord_toWord]

theorem Cmd.toWord_and (c m : Cmd) : c.toWord &&& m.toWord =
    Cmd.toWord ⟨c.rsv &&& m.rsv, c.vb &&& m.vb, c.va &&& m.va, c.vd &&& m.vd, c.op &&& m.op⟩ := by
  simp only [Cmd.toWord, ← BitVec.and_append]

/-- The mask of a row, field by field: the register fields the command uses are left out (R52). -/
def FieldUse.mask (u : FieldUse) : Cmd where
  rsv := BitVec.allOnes 12
  vb  := if u.vb then 0 else BitVec.allOnes 4
  va  := if u.va then 0 else BitVec.allOnes 4
  vd  := if u.vd then 0 else BitVec.allOnes 4
  op  := BitVec.allOnes 8

/-- The word of an opcode whose other fields are zero: the match column of R52. -/
def opWord (op : BitVec 8) : Word := Cmd.toWord ⟨0, 0, 0, 0, op⟩

theorem fieldMasked_eq_zero (use : Bool) (f : BitVec 4) :
    (f &&& if use then 0 else BitVec.allOnes 4) = 0 ↔ (use || f == 0) = true := by
  cases use with
  | true => simp
  | false => rw [if_neg Bool.false_ne_true, BitVec.and_allOnes, Bool.false_or, beq_iff_eq]

theorem masked_eq_opWord_iff (c : Cmd) (u : FieldUse) (op : BitVec 8) :
    c.toWord &&& u.mask.toWord = opWord op ↔ c.rsv = 0 ∧ c.op = op ∧
      ((u.vd || c.vd == 0) && (u.va || c.va == 0) && (u.vb || c.vb == 0)) = true := by
  rw [Cmd.toWord_and, opWord]
  constructor
  · intro h
    obtain ⟨hrsv, hvb, hva, hvd, hop⟩ := Cmd.mk.inj (Cmd.toWord_injective h)
    simp only [FieldUse.mask, BitVec.and_allOnes, fieldMasked_eq_zero] at hrsv hvb hva hvd hop
    simp only [hrsv, hvb, hva, hvd, hop, Bool.and_self, and_self]
  · simp only [Bool.and_eq_true]
    rintro ⟨hrsv, hop, ⟨hvd, hva⟩, hvb⟩
    rw [← fieldMasked_eq_zero] at hvd hva hvb
    simp only [FieldUse.mask, BitVec.and_allOnes, hrsv, hvb, hva, hvd, hop]

/-- The match and mask columns of R52 say what its VD, VA and VB columns say. -/
theorem opTable_columns : ∀ n : Fin opTable.length, ∃ u, Cmd.fieldUse (BitVec.ofNat 8 n) = some u ∧
    opTable[n].pat = opWord (BitVec.ofNat 8 n) ∧ opTable[n].mask = u.mask.toWord := by
  intro n
  fin_cases n <;> exact ⟨_, rfl, rfl, rfl⟩

/-- Row `n` matches the words with zero reserved bits, opcode `n` and zero unused fields. -/
theorem matches_iff (x : Word) (n : Fin opTable.length) : opTable[n].matches x = true ↔
    (Cmd.ofWord x).reservedZero = true ∧ (Cmd.ofWord x).op = BitVec.ofNat 8 n ∧
      (Cmd.ofWord x).unusedZero = true := by
  obtain ⟨u, hu, hpat, hmask⟩ := opTable_columns n
  have hword := masked_eq_opWord_iff (Cmd.ofWord x) u (BitVec.ofNat 8 n)
  rw [Cmd.toWord_ofWord] at hword
  rw [OpRow.matches, beq_iff_eq, hpat, hmask, hword, Cmd.reservedZero, beq_iff_eq]
  refine and_congr_right fun _ => and_congr_right fun hop => ?_
  rw [Cmd.unusedZero, hop, hu]

theorem op_eq_ofNat_iff (op : BitVec 8) (n : Fin opTable.length) :
    op = BitVec.ofNat 8 n ↔ op.toNat = n := by
  have hn : n.val < 13 := n.isLt
  rw [← BitVec.toNat_inj, BitVec.toNat_ofNat, Nat.mod_eq_of_lt (by omega)]

/-- R55: the defined opcodes are 0x00 to 0x0C, one a row of the table. -/
theorem Cmd.opDefined_iff (c : Cmd) : c.opDefined = true ↔ c.op.toNat ≤ 0x0C := by
  have h : ∀ op : BitVec 8, (Cmd.fieldUse op).isSome = decide (op.toNat ≤ 0x0C) := by decide
  rw [Cmd.opDefined, h, decide_eq_true_eq]

/-- The legal words are those that a row matches. -/
theorem wf_iff_exists_matches (x : Word) : (Cmd.ofWord x).wf = true ↔
    ∃ n : Fin opTable.length, opTable[n].matches x = true := by
  simp only [Cmd.wf, Bool.and_eq_true, matches_iff]
  constructor
  · rintro ⟨⟨hrsv, hdef⟩, hun⟩
    have hlt : (Cmd.ofWord x).op.toNat < opTable.length :=
      Nat.lt_succ_of_le ((Cmd.opDefined_iff _).mp hdef)
    exact ⟨⟨_, hlt⟩, hrsv, (op_eq_ofNat_iff _ ⟨_, hlt⟩).mpr rfl, hun⟩
  · rintro ⟨n, hrsv, hop, hun⟩
    have hle : (Cmd.ofWord x).op.toNat ≤ 0x0C :=
      (op_eq_ofNat_iff _ n).mp hop ▸ Nat.le_of_lt_succ n.isLt
    exact ⟨⟨hrsv, (Cmd.opDefined_iff _).mpr hle⟩, hun⟩

/-! ## What the decoder answers -/

/-- The command that the row of an opcode gives for a word's three register fields (R62). -/
def Cmd.instr (c : Cmd) (n : Fin opTable.length) : Instr :=
  opTable[n].build c.vd.toFin c.va.toFin c.vb.toFin

theorem decode_reservedBits {x : Word} (h : (Cmd.ofWord x).reservedZero = false) :
    decode x = .error .reservedBits :=
  if_pos (by simpa [Cmd.reservedZero] using h)

/-- A word that no row matches is refused by whether its opcode has a row. -/
theorem decode_of_no_row {x : Word} (h : (Cmd.ofWord x).reservedZero = true)
    (hrow : ∀ n : Fin opTable.length, opTable[n].matches x = false) :
    decode x = .error (if (Cmd.ofWord x).op.toNat ≤ 0x0C then .unusedField else .reservedOpcode) := by
  have hnone : opTable.find? (·.matches x) = none := by
    refine List.find?_eq_none.mpr fun r hr => ?_
    obtain ⟨n, hn, rfl⟩ := List.mem_iff_getElem.mp hr
    exact Bool.eq_false_iff.mp (hrow ⟨n, hn⟩)
  have hrsv : (Cmd.ofWord x).rsv = 0 := beq_iff_eq.mp h
  simp only [decode, hrsv, ne_eq, not_true_eq_false, ↓reduceIte, hnone]

/-- A word that a row matches decodes to that row's command. -/
theorem decode_of_matches {x : Word} {n : Fin opTable.length} (h : opTable[n].matches x = true) :
    decode x = .ok ((Cmd.ofWord x).instr n) := by
  obtain ⟨hrsv, hop, hun⟩ := (matches_iff x n).mp h
  have hsome : opTable.find? (·.matches x) = some opTable[n] := by
    refine List.find?_eq_some_iff_getElem.mpr ⟨h, n, n.isLt, rfl, fun m hm => ?_⟩
    have hm' := (matches_iff x ⟨m, hm.trans n.isLt⟩).not.mpr fun ⟨_, hop', _⟩ => by
      rw [op_eq_ofNat_iff] at hop hop'
      exact hm.ne (hop'.symm.trans hop)
    simpa using hm'
  have hzero : (Cmd.ofWord x).rsv = 0 := beq_iff_eq.mp hrsv
  simp only [decode, hzero, ne_eq, not_true_eq_false, ↓reduceIte, hsome, Cmd.instr]

/-- R62: a word decodes to the command of the row it matches, and to no other. -/
theorem decode_ok_iff (x : Word) (i : Instr) : decode x = .ok i ↔
    ∃ n : Fin opTable.length, opTable[n].matches x = true ∧ (Cmd.ofWord x).instr n = i := by
  constructor
  · intro h
    by_cases hrow : ∃ n : Fin opTable.length, opTable[n].matches x = true
    · obtain ⟨n, hn⟩ := hrow
      exact ⟨n, hn, Except.ok.inj ((decode_of_matches hn).symm.trans h)⟩
    · cases hrsv : (Cmd.ofWord x).reservedZero with
      | false => cases (decode_reservedBits hrsv).symm.trans h
      | true => cases (decode_of_no_row hrsv (by simpa using hrow)).symm.trans h
  · rintro ⟨n, hn, rfl⟩
    exact decode_of_matches hn

/-- A word with zero reserved bits that is not legal is refused by whether its opcode is defined. -/
theorem decode_of_not_wf {x : Word} (hrsv : (Cmd.ofWord x).reservedZero = true)
    (hwf : (Cmd.ofWord x).wf = false) : decode x =
      .error (if (Cmd.ofWord x).op.toNat ≤ 0x0C then .unusedField else .reservedOpcode) := by
  have hrow := (wf_iff_exists_matches x).not.mp (Bool.eq_false_iff.mp hwf)
  exact decode_of_no_row hrsv (by simpa using hrow)

/-! ## The command of a row and the fields it assembles to -/

/-- A row's command assembles to the row's opcode and the register fields the row uses. -/
theorem cmd_instr_eq (c : Cmd) : ∀ n : Fin opTable.length, ∃ u,
    Cmd.fieldUse (BitVec.ofNat 8 n) = some u ∧ (c.instr n).cmd =
      ⟨0, if u.vb then c.vb else 0, if u.va then c.va else 0, if u.vd then c.vd else 0,
        BitVec.ofNat 8 n⟩ := by
  intro n
  fin_cases n <;> exact ⟨_, rfl, rfl⟩

theorem used_or_zero {use : Bool} {f : BitVec 4} (h : (use || f == 0) = true) :
    (if use then f else 0) = f := by
  cases use with
  | true => rfl
  | false => exact (beq_iff_eq.mp h).symm

/-- No field of a matched word is dropped: the unused ones are zero. -/
theorem cmd_instr_of_matches {x : Word} {n : Fin opTable.length} (h : opTable[n].matches x = true) :
    ((Cmd.ofWord x).instr n).cmd = Cmd.ofWord x := by
  obtain ⟨hrsv, hop, hun⟩ := (matches_iff x n).mp h
  obtain ⟨u, hu, hcmd⟩ := cmd_instr_eq (Cmd.ofWord x) n
  simp only [Cmd.unusedZero, hop, hu, Bool.and_eq_true] at hun
  obtain ⟨⟨hvd, hva⟩, hvb⟩ := hun
  rw [hcmd, used_or_zero hvb, used_or_zero hva, used_or_zero hvd, ← hop,
    ← beq_iff_eq.mp hrsv]

/-- The row of R52 that a command stands in. -/
theorem Instr.exists_row : ∀ i : Instr, ∃ n : Fin opTable.length,
    i.cmd.op = BitVec.ofNat 8 n ∧ i.cmd.instr n = i
  | .nop        => ⟨(0 : Fin 13), rfl, rfl⟩
  | .vfill _    => ⟨(1 : Fin 13), rfl, rfl⟩
  | .vsize _    => ⟨(2 : Fin 13), rfl, rfl⟩
  | .vnot _ _   => ⟨(3 : Fin 13), rfl, rfl⟩
  | .vand _ _ _ => ⟨(4 : Fin 13), rfl, rfl⟩
  | .vor _ _ _  => ⟨(5 : Fin 13), rfl, rfl⟩
  | .veq _ _    => ⟨(6 : Fin 13), rfl, rfl⟩
  | .vxz _ _    => ⟨(7 : Fin 13), rfl, rfl⟩
  | .vxw _ _    => ⟨(8 : Fin 13), rfl, rfl⟩
  | .bnew       => ⟨(9 : Fin 13), rfl, rfl⟩
  | .bset       => ⟨(10 : Fin 13), rfl, rfl⟩
  | .bbuild _   => ⟨(11 : Fin 13), rfl, rfl⟩
  | .vrdw _     => ⟨(12 : Fin 13), rfl, rfl⟩

theorem Instr.legal : ∀ i : Instr, Laws.Legal.Statement i
  | .nop        => Laws.Legal.nop
  | .vfill d    => Laws.Legal.vfill d
  | .vsize a    => Laws.Legal.vsize a
  | .vnot d a   => Laws.Legal.vnot d a
  | .vand d a b => Laws.Legal.vand d a b
  | .vor d a b  => Laws.Legal.vor d a b
  | .veq a b    => Laws.Legal.veq a b
  | .vxz d a    => Laws.Legal.vxz d a
  | .vxw d a    => Laws.Legal.vxw d a
  | .bnew       => Laws.Legal.bnew
  | .bset       => Laws.Legal.bset
  | .bbuild d   => Laws.Legal.bbuild d
  | .vrdw a     => Laws.Legal.vrdw a

/-- The word of a command matches its row, so it decodes to that row's command. -/
theorem decode_encode (i : Instr) : decode (encode i) = .ok i := by
  obtain ⟨hcmd, hwf⟩ := i.legal
  obtain ⟨n, hop, hi⟩ := i.exists_row
  simp only [Instr.wf, Cmd.wf, Bool.and_eq_true] at hwf
  obtain ⟨⟨hrsv, -⟩, hun⟩ := hwf
  refine (decode_ok_iff _ _).mpr ⟨n, (matches_iff _ n).mpr ?_, hcmd ▸ hi⟩
  exact hcmd ▸ ⟨hrsv, hop, hun⟩

theorem encode_of_decode {x : Word} {i : Instr} (h : decode x = .ok i) : encode i = x := by
  obtain ⟨n, hn, rfl⟩ := (decode_ok_iff x i).mp h
  rw [encode, cmd_instr_of_matches hn, Cmd.toWord_ofWord]

/-! ## The byte lanes of a word -/

/-- R42: a word is its byte lanes. -/
theorem wordOfLanes_byteLane (x : Word) :
    wordOfLanes (byteLane x 0) (byteLane x 1) (byteLane x 2) (byteLane x 3) = x := by
  refine BitVec.eq_of_getLsbD_eq fun i hi => ?_
  simp only [wordOfLanes, byteLane, BitVec.getLsbD_append, BitVec.getLsbD_extractLsb']
  grind

theorem tableWord_toNat (x : Word) : tableWord 32 x.toNat = x := by
  rw [tableWord, Nat.mod_eq_of_lt x.isLt, BitVec.ofNat_toNat, BitVec.setWidth_eq]

/-- A command word that decodes is read as its command through its byte lanes. -/
theorem decodeTableWord_of_decode {x : Word} {i : Instr} (h : decode x = .ok i) :
    decodeTableWord 32 x.toNat = some i := by
  simp only [decodeTableWord, decodeBytes, tableWord_toNat, wordOfLanes_byteLane, h]

end Sys2Proof

open Sys2Proof

/-- Settles O37: the word of a command matches its row (`decode_encode`), and a word is its byte
lanes. -/
theorem decodeUndoesEncode : Obligations.DecodeUndoesEncode :=
  fun i => ⟨decode_encode i, decodeTableWord_of_decode (decode_encode i)⟩

/-- Settles O38: the command of the matched row assembles to the fields of the word
(`cmd_instr_of_matches`), and a word is its fields. -/
theorem encodeUndoesDecode : Obligations.EncodeUndoesDecode :=
  fun _ _ => encode_of_decode

/-- Settles O39: the legal words are those that a row matches (`wf_iff_exists_matches`), and the decoder
tests the reserved bits first, then the rows, then whether the opcode is defined. -/
theorem legalWordsAreTheWellFormedFields : Obligations.LegalWordsAreTheWellFormedFields := by
  intro x
  refine ⟨?_, decode_reservedBits, fun hrsv hdef => ?_, fun hrsv hdef hun => ?_⟩
  · simp only [decode_ok_iff, wf_iff_exists_matches]
    exact ⟨fun ⟨_, n, hn, _⟩ => ⟨n, hn⟩, fun ⟨n, hn⟩ => ⟨_, n, hn, rfl⟩⟩
  · have hwf : (Cmd.ofWord x).wf = false := by rw [Cmd.wf, hdef, Bool.and_false, Bool.false_and]
    have hop := (Cmd.opDefined_iff _).not.mp (Bool.eq_false_iff.mp hdef)
    rw [decode_of_not_wf hrsv hwf, if_neg hop]
  · have hwf : (Cmd.ofWord x).wf = false := by rw [Cmd.wf, hun, Bool.and_false]
    rw [decode_of_not_wf hrsv hwf, if_pos ((Cmd.opDefined_iff _).mp hdef)]

/-- Settles O40: a matched row's number is the word's opcode. -/
theorem noWordMatchesTwoRows : Obligations.NoWordMatchesTwoRows := by
  intro x m n hm hn
  obtain ⟨-, hopm, -⟩ := (matches_iff x m).mp hm
  obtain ⟨-, hopn, -⟩ := (matches_iff x n).mp hn
  rw [op_eq_ofNat_iff] at hopm hopn
  exact Fin.ext (hopm.symm.trans hopn)

/-- Settles O41: each is the word of its command or an illegal one, by evaluation of the decoder. -/
theorem writtenOutWordsDecode : Obligations.WrittenOutWordsDecode := by
  unfold Obligations.WrittenOutWordsDecode
  decide

end

section
/-! A destination that is also a source (spec/30_encoding.md R59). -/

namespace Sys2Proof.Machine

variable {s : State} {r : VReg} {v : Vec}

theorem vnot_vnot (v : Vec) : vnot (vnot v) = v := by
  refine Vec.ext_word (by simp) fun k hk => ?_
  simp only [nw_vnot] at hk
  rw [word_vnot _ (by simpa using hk), word_vnot v hk, BitVec.not_not]

theorem vand_self (v : Vec) : vand v v = v :=
  Vec.ext_word (nw_vand rfl) fun k hk => by
    rw [nw_vand rfl] at hk
    rw [word_vand rfl hk, BitVec.and_self]

theorem vor_self (v : Vec) : vor v v = v :=
  Vec.ext_word (nw_vor rfl) fun k hk => by
    rw [nw_vor rfl] at hk
    rw [word_vor rfl hk, BitVec.or_self]

/-- A register written with the value it holds. -/
theorem State.setVreg_eq_self (h : s.vreg r = some v) : s.setVreg r v = s := by
  have hvr : s.vr.set r (some v) = s.vr := by
    rw [← h]
    exact Vector.set_getElem_self _
  rw [State.setVreg, hvr]

/-- The later of two writes of a register stands. -/
theorem State.setVreg_setVreg (s : State) (r : VReg) (v w : Vec) :
    (s.setVreg r v).setVreg r w = s.setVreg r w := by
  simp only [State.setVreg, Vector.set_set]

theorem execVnot_of_valid {d a : VReg} (h : s.vreg a = some v) :
    execVnot d a s = .next { s.setVreg d (vnot v) with err := none } :=
  needVec_some h

end Sys2Proof.Machine

open Sys2Proof Sys2Proof.Machine

/-- Settles O55: the operands are read from the state before the write, and writing back the value a
register holds changes nothing (`State.setVreg_eq_self`). -/
theorem aliasedOperandsAreReadFirst : Obligations.AliasedOperandsAreReadFirst := by
  intro r s v hv
  refine ⟨?_, ?_, _, execVnot_of_valid hv, s.vreg_setVreg_same r _, ?_⟩
  · calc execVand r r r s = succeed (s.setVreg r (vand v v)) := by
          rw [execVand, needVec_some hv, needVec_some hv, check_pos rfl]
      _ = succeed s := by rw [vand_self, State.setVreg_eq_self hv]
  · calc execVor r r r s = succeed (s.setVreg r (vor v v)) := by
          rw [execVor, needVec_some hv, needVec_some hv, check_pos rfl]
      _ = succeed s := by rw [vor_self, State.setVreg_eq_self hv]
  · calc execVnot r r { s.setVreg r (vnot v) with err := none }
        = succeed ((s.setVreg r (vnot v)).setVreg r (vnot (vnot v))) :=
          execVnot_of_valid (s.vreg_setVreg_same r _)
      _ = succeed s := by rw [State.setVreg_setVreg, vnot_vnot, State.setVreg_eq_self hv]

end

section
/-! The host's statements as runs: what each primitive does, and the pseudo-instructions of one command
(spec/30_encoding.md R60, R61). -/

namespace Sys2Proof.Machine

variable {s : State} {es : List HostEvent} {i : Instr} {m n : Int}

theorem run_one (s : State) : Host.Core.run core 1 s = step s := by
  have hcore : core.step s = step s := rfl
  simp only [Host.Core.run, hcore]
  cases step s <;> rfl

/-- R60, R40: `WR ARG0, m`. -/
theorem step_wr_arg0 (h : s.host = (Prim.wr .arg0 m).event s.config :: es) :
    step s = .next { s with host := es, arg0 := u32 m } :=
  step_write (r := .arg0) h

/-- R60, R45: a command statement runs its command, since its word decodes to it. -/
theorem step_cmd (h : s.host = (Prim.cmd i).event s.config :: es) :
    step s = exec i { s with host := es, cmd := encode i } :=
  (step_write (r := .cmd) h).trans (runCommand_ok (decode_encode i) _)

theorem run_wr_cmd (h : s.host = [.wr .arg0 m, .cmd i].map (Prim.event s.config) ++ es) :
    Host.Core.run core 2 s = exec i { s with host := es, arg0 := u32 m, cmd := encode i } := by
  rw [run_succ_next (step_wr_arg0 h), run_one]
  exact step_cmd rfl

theorem run_wr_wr_cmd
    (h : s.host = [.wr .arg0 m, .wr .arg1 n, .cmd i].map (Prim.event s.config) ++ es) :
    Host.Core.run core 3 s =
      exec i { s with host := es, arg0 := u32 m, arg1 := u32 n, cmd := encode i } := by
  rw [run_succ_next (step_wr_arg0 h), run_succ_next (step_write (r := .arg1) rfl), run_one]
  exact step_cmd rfl

/-- The command completes and leaves the read of `RESULT` pending, at the same base. -/
theorem run_cmd_rd (h : s.host = [.cmd i, .rd .result].map (Prim.event s.config) ++ es) :
    ∃ t, exec i { s with host := .read (s.config.base + 0x0C) 4 :: es, cmd := encode i } = .next t ∧
      Host.Core.run core 2 s = .next { t with host := es, readData := some t.result } := by
  have hstep := step_cmd h
  obtain ⟨t, ht⟩ := exec_completes i
    { s with host := .read (s.config.base + 0x0C) 4 :: es, cmd := encode i }
  have hhost : t.host = .read (t.config.base + 0x0C) 4 :: es := by
    rw [(exec_effect ht).host_eq, (exec_effect ht).config_eq]
  refine ⟨t, ht, ?_⟩
  rw [run_succ_next (hstep.trans ht), run_one, step_read (r := .result) hhost rfl]
  rfl

theorem run_wr_cmd_rd
    (h : s.host = [.wr .arg0 m, .cmd i, .rd .result].map (Prim.event s.config) ++ es) :
    ∃ t, exec i { s with
        host := .read (s.config.base + 0x0C) 4 :: es, arg0 := u32 m, cmd := encode i } = .next t ∧
      Host.Core.run core 3 s = .next { t with host := es, readData := some t.result } := by
  rw [run_succ_next (step_wr_arg0 h)]
  exact run_cmd_rd (s := { s with
    host := [.cmd i, .rd .result].map (Prim.event s.config) ++ es, arg0 := u32 m }) rfl

end Sys2Proof.Machine

open Sys2Proof Sys2Proof.Machine

/-- Settles O56: an expansion is a command after argument writes (`run_wr_cmd`, `run_wr_wr_cmd`), a
command before a read of `RESULT` (`run_cmd_rd`, `run_wr_cmd_rd`), or the read of `STATUS` alone. -/
theorem pseudoInstructionsRunTheirCommands : Obligations.PseudoInstructionsRunTheirCommands := by
  intro s d a b m n es
  exact ⟨run_wr_wr_cmd, run_wr_wr_cmd, run_wr_wr_cmd, run_wr_cmd, run_wr_wr_cmd, run_cmd_rd,
    run_cmd_rd, run_wr_cmd_rd, fun h =>
    (run_one s).trans (step_read (r := .status) h rfl)⟩

end

section
/-! LOADVEC (spec/30_encoding.md R61): BNEW opens a buffer for the words, every SETBYTE writes one byte
lane, and BBUILD packs the buffer back to the words. -/

namespace Sys2Proof.Machine

variable {s t : State} {es : List HostEvent}

/-! ## Immediates -/

theorem int32_u32 {k : Nat} (h : k < 2 ^ 31) : int32 (u32 k) = k := by
  rw [int32_eq_toInt, u32, BitVec.toInt_ofInt_eq_self (by decide) (by omega) (by omega)]

theorem u32_toNat_byte (b : Byte) : u32 b.toNat = b.setWidth 32 := by
  rw [u32, BitVec.ofInt_natCast, BitVec.ofNat_toNat]

theorem extractLsb'_setWidth_byte (b : Byte) : (b.setWidth 32).extractLsb' 0 8 = b := by
  refine BitVec.eq_of_getLsbD_eq fun i hi => ?_
  have hi32 : i < 32 := by omega
  simp [hi, hi32]

/-! ## Runs of SETBYTEs -/

/-- BSET of a legal index and a byte (R85). -/
theorem execBset_of_legal {k : Nat} {b : Byte} (ho : s.builder.state = .opened)
    (hk : k < s.builder.size / 8) (hi : s.indexArg = k) (hv : s.arg1 = b.setWidth 32) :
    execBset s = .next { s with
      builder := { s.builder with bytes := s.builder.bytes.set k b }, err := none } := by
  have hvalue : s.valueArg ≤ 0xFF := by
    rw [State.valueArg, hv, BitVec.toNat_setWidth_of_le (by decide)]
    omega
  rw [execBset, needOpen_opened ho, needIndex_ok (by omega) (by omega), check_pos hvalue, hi, hv,
    extractLsb'_setWidth_byte, succeed_eq, Int.toNat_natCast]

/-- `t` is `s` with the host's events `es` left and the builder's buffer replaced; it may differ in the
argument registers, `CMD` and `ERR`. -/
def State.Buffered (s : State) (es : List HostEvent) (bytes : List Byte) (t : State) : Prop :=
  ∃ a0 a1 c e, t = { s with host := es, arg0 := a0, arg1 := a1, cmd := c, err := e,
                            builder := { s.builder with bytes := bytes } }

theorem State.Buffered.fields {bytes : List Byte} (h : s.Buffered es bytes t) :
    t.config = s.config ∧ t.host = es ∧ t.builder = { s.builder with bytes := bytes } := by
  obtain ⟨a0, a1, c, e, rfl⟩ := h
  exact ⟨rfl, rfl, rfl⟩

theorem State.Buffered.trans {u : State} {es' : List HostEvent} {bytes bytes' : List Byte}
    (h : s.Buffered es bytes t) (h' : t.Buffered es' bytes' u) : s.Buffered es' bytes' u := by
  obtain ⟨_, _, _, _, rfl⟩ := h
  obtain ⟨a0, a1, c, e, rfl⟩ := h'
  exact ⟨a0, a1, c, e, rfl⟩

theorem run_setbyte {k : Nat} {b : Byte} (ho : s.builder.state = .opened)
    (hk : k < s.builder.size / 8) (hk31 : k < 2 ^ 31)
    (h : s.host = (setbytePrims k b.toNat).map (Prim.event s.config) ++ es) :
    ∃ t, Host.Core.run core 3 s = .next t ∧ s.Buffered es (s.builder.bytes.set k b) t :=
  ⟨_, (run_wr_wr_cmd h).trans (execBset_of_legal ho hk (int32_u32 hk31) (u32_toNat_byte b)),
    _, _, _, _, rfl⟩

theorem run_add_next {j : Nat} (h : Host.Core.run core j s = .next t) (k : Nat) :
    Host.Core.run core (j + k) s = Host.Core.run core k t := by
  induction j generalizing s with
  | zero => cases h; rw [Nat.zero_add]
  | succ j ih =>
    obtain ⟨u, hu, h⟩ := run_succ_cases h
    rw [Nat.succ_add, run_succ_next hu, ih h]

/-- The SETBYTEs of byte `f m` at index `m`, for each listed index. -/
def byteWrites (f : Nat → Byte) (ms : List Nat) : List Prim :=
  ms.flatMap fun m : Nat => setbytePrims m (f m).toNat

theorem length_byteWrites (f : Nat → Byte) (ms : List Nat) :
    (byteWrites f ms).length = 3 * ms.length := by
  simp [byteWrites, setbytePrims, List.length_flatMap, Nat.mul_comm]

/-- A buffer after the byte writes, in their order. -/
def writeBytes (f : Nat → Byte) (ms : List Nat) (bytes : List Byte) : List Byte :=
  ms.foldl (fun bs m => bs.set m (f m)) bytes

theorem run_byteWrites (f : Nat → Byte) (ms : List Nat) (ho : s.builder.state = .opened)
    (hms : ∀ m ∈ ms, m < s.builder.size / 8 ∧ m < 2 ^ 31)
    (h : s.host = (byteWrites f ms).map (Prim.event s.config) ++ es) :
    ∃ t, Host.Core.run core (3 * ms.length) s = .next t ∧
      s.Buffered es (writeBytes f ms s.builder.bytes) t := by
  induction ms generalizing s with
  | nil => exact ⟨s, rfl, s.arg0, s.arg1, s.cmd, s.err, by cases s; cases h; rfl⟩
  | cons m ms ih =>
    obtain ⟨⟨hm, hm31⟩, hms⟩ := List.forall_mem_cons.mp hms
    rw [byteWrites, List.flatMap_cons, List.map_append, List.append_assoc] at h
    obtain ⟨u, hu, hsu⟩ := run_setbyte ho hm hm31 h
    obtain ⟨hconfig, hhost, hbuilder⟩ := hsu.fields
    obtain ⟨t, ht, hut⟩ := ih (s := u) (hbuilder ▸ ho) (hbuilder ▸ hms) (hconfig ▸ hhost)
    rw [hbuilder] at hut
    have hcount : 3 * (m :: ms).length = 3 + 3 * ms.length := by rw [List.length_cons]; omega
    exact ⟨t, hcount ▸ (run_add_next hu _).trans ht, hsu.trans hut⟩

/-! ## The bytes of a list of words -/

/-- Byte `m` of the words, least significant first: byte `4k+j` is lane `j` of word `k` (R61). -/
def laneOf (ws : List Word) (m : Nat) : Byte := byteLane (ws.getD (m / 4) 0) (m % 4)

theorem toNat_shift_and_eq_byteLane (w : Word) (j : Nat) :
    (w >>> (8 * j) &&& 0xFF).toNat = (byteLane w j).toNat := by
  rw [byteLane, BitVec.toNat_and, BitVec.toNat_ushiftRight, BitVec.extractLsb'_toNat]
  exact Nat.and_two_pow_sub_one_eq_mod _ 8

theorem loadBytesPrims_eq (ws : List Word) :
    loadBytesPrims ws = byteWrites (laneOf ws) (List.range (4 * ws.length)) := by
  simp only [loadBytesPrims, byteWrites, laneOf, toNat_shift_and_eq_byteLane]

theorem getElem?_writeBytes (f : Nat → Byte) (ms : List Nat) (bytes : List Byte) (i : Nat) :
    (writeBytes f ms bytes)[i]? = if i ∈ ms then bytes[i]?.map fun _ => f i else bytes[i]? := by
  induction ms generalizing bytes with
  | nil => rfl
  | cons m ms ih =>
    have hset : (writeBytes f (m :: ms) bytes)[i]? = _ := ih (bytes.set m (f m))
    rw [hset, List.getElem?_set']
    by_cases hm : m = i
    · subst hm
      cases bytes[m]? <;> simp
    · simp [hm, Ne.symm hm]

/-- Writing every byte of a buffer leaves nothing of what it held. -/
theorem writeBytes_range (f : Nat → Byte) {bytes : List Byte} {n : Nat} (hn : bytes.length = n) :
    writeBytes f (List.range n) bytes = (List.range n).map f := by
  subst hn
  refine List.ext_getElem? fun i => ?_
  rw [getElem?_writeBytes, List.getElem?_map]
  by_cases hi : i < bytes.length
  · simp [hi]
  · simp [hi]

theorem or_shifts_eq_wordOfLanes (b0 b1 b2 b3 : Byte) :
    b0.setWidth 32 ||| b1.setWidth 32 <<< 8 ||| b2.setWidth 32 <<< 16 ||| b3.setWidth 32 <<< 24 =
      wordOfLanes b0 b1 b2 b3 := by
  refine BitVec.eq_of_getLsbD_eq fun i hi => ?_
  simp only [wordOfLanes, BitVec.getLsbD_append, BitVec.getLsbD_or, BitVec.getLsbD_shiftLeft,
    BitVec.getLsbD_setWidth]
  grind

theorem byteAsWord_map_laneOf (ws : List Word) {k j : Nat} (hk : k < ws.length) (hj : j < 4) :
    byteAsWord ((List.range (4 * ws.length)).map (laneOf ws)) (4 * k + j) =
      (byteLane (ws.getD k 0) j).setWidth 32 := by
  have hm : 4 * k + j < 4 * ws.length := by omega
  have hdiv : (4 * k + j) / 4 = k := by omega
  have hmod : (4 * k + j) % 4 = j := by omega
  simp only [byteAsWord, List.getD_eq_getElem?_getD, List.getElem?_map, List.getElem?_range hm,
    Option.map_some, Option.getD_some, laneOf, hdiv, hmod]

/-- R87: packing the byte lanes of words gives the words. -/
theorem pack_map_laneOf {ws : List Word} {n : Nat} (hn : ws.length = n) :
    pack (32 * n) ((List.range (4 * n)).map (laneOf ws)) = ⟨ws⟩ := by
  subst hn
  have hnw : 32 * ws.length / 32 = ws.length := by omega
  refine Vec.ext_word (by rw [nw_pack, hnw]; rfl) fun k hk => ?_
  rw [nw_pack] at hk
  have hlane := fun j => byteAsWord_map_laneOf ws (k := k) (j := j) (hnw ▸ hk)
  rw [word_pack _ hk, ← Nat.add_zero (4 * k), hlane 0 (by decide), hlane 1 (by decide),
    hlane 2 (by decide), hlane 3 (by decide), or_shifts_eq_wordOfLanes, wordOfLanes_byteLane]
  rfl

/-! ## The parts of LOADVEC -/

theorem expand_loadvec (d : VReg) (words : List Word) : (Stmt.loadvec d words).expand =
    [.wr .arg0 (32 * words.length : Nat), .cmd .bnew] ++
      (byteWrites (laneOf words.reverse) (List.range (4 * words.length)) ++ [.cmd (.bbuild d)]) := by
  rw [Stmt.expand, loadBytesPrims_eq, List.length_reverse, List.append_assoc]
  rfl

/-- BNEW of a legal number of words (R84). -/
theorem execBnew_of_legal {n : Nat} (h0 : 0 < n) (hn : n ≤ s.config.maxWords)
    (harg : s.sizeArg = (32 * n : Nat)) :
    execBnew s = .next { s with
      builder := ⟨.opened, 32 * n, List.replicate (4 * n) 0⟩, err := none } := by
  have hok : sizeOK s.sizeArg = true := (sizeOK_iff _).mpr (by omega)
  have hcap : s.sizeArg ≤ s.config.maxBits := by
    rw [harg, Config.maxBits_eq]
    omega
  have hbytes : 32 * n / 8 = 4 * n := by omega
  rw [execBnew, needSize_ok hok hcap, harg, Int.toNat_natCast, hbytes, succeed_eq]

/-- The run of BUILDER opens a zeroed buffer. -/
theorem run_builder {n : Nat} (h0 : 0 < n) (hn : n ≤ s.config.maxWords) (hn31 : 32 * n < 2 ^ 31)
    (h : s.host = [.wr .arg0 (32 * n : Nat), .cmd .bnew].map (Prim.event s.config) ++ es) :
    ∃ t, Host.Core.run core 2 s = .next t ∧
      { s with builder := ⟨.opened, 32 * n, []⟩ }.Buffered es (List.replicate (4 * n) 0) t :=
  ⟨_, (run_wr_cmd h).trans (execBnew_of_legal h0 hn (int32_u32 hn31)), _, _, _, _, rfl⟩

/-- The run of BUILDER and all SETBYTEs leaves the byte lanes of the words in an open buffer. -/
theorem run_builder_byteWrites {n : Nat} (ws : List Word) (h0 : 0 < n) (hn : n ≤ s.config.maxWords)
    (hn31 : 32 * n < 2 ^ 31)
    (h : s.host = [.wr .arg0 (32 * n : Nat), .cmd .bnew].map (Prim.event s.config) ++
      ((byteWrites (laneOf ws) (List.range (4 * n))).map (Prim.event s.config) ++ es)) :
    ∃ t, Host.Core.run core (2 + 3 * (4 * n)) s = .next t ∧
      { s with builder := ⟨.opened, 32 * n, []⟩ }.Buffered es
        ((List.range (4 * n)).map (laneOf ws)) t := by
  obtain ⟨u, hu, hsu⟩ := run_builder h0 hn hn31 h
  obtain ⟨hconfig, hhost, hbuilder⟩ := hsu.fields
  have hlegal : ∀ m ∈ List.range (4 * n), m < 32 * n / 8 ∧ m < 2 ^ 31 := fun m hm => by
    rw [List.mem_range] at hm
    omega
  obtain ⟨t, ht, hut⟩ := run_byteWrites (s := u) (laneOf ws) (List.range (4 * n))
    (hbuilder ▸ rfl) (hbuilder ▸ hlegal) (hconfig ▸ hhost)
  rw [hbuilder, writeBytes_range _ List.length_replicate] at hut
  rw [List.length_range] at ht
  exact ⟨t, (run_add_next hu _).trans ht, hsu.trans hut⟩

theorem run_bbuild {d : VReg} (ho : s.builder.state = .opened)
    (h : s.host = (Prim.cmd (.bbuild d)).event s.config :: es) :
    Host.Core.run core 1 s = .next { s.setVreg d (pack s.builder.size s.builder.bytes) with
      host := es, cmd := encode (.bbuild d), err := none
      builder := { s.builder with state := .consumed } } :=
  (run_one s).trans ((step_cmd h).trans (needOpen_opened ho))

end Sys2Proof.Machine

open Sys2Proof Sys2Proof.Machine

/-- Settles O57: the bytes written are the lanes of the words (`run_builder_byteWrites`), and packing
them gives the words back (`pack_map_laneOf`). -/
theorem loadvecBuildsTheVector : Obligations.LoadvecBuildsTheVector := by
  intro s d words es hwf h0 hn h
  obtain ⟨-, hcap, -⟩ := (Config.wf_iff _).mp hwf
  have hcount : ((Stmt.loadvec d words).events s.config).length = 2 + 3 * (4 * words.length) + 1 := by
    rw [Stmt.events, expand_loadvec, List.length_map, List.length_append, List.length_append,
      length_byteWrites, List.length_range]
    rfl
  rw [Stmt.events, expand_loadvec, List.map_append, List.map_append, List.append_assoc,
    List.append_assoc] at h
  obtain ⟨t, ht, hst⟩ := run_builder_byteWrites words.reverse h0 hn (by omega) h
  obtain ⟨hconfig, hhost, hbuilder⟩ := hst.fields
  have hbuild := run_bbuild (s := t) (d := d) (hbuilder ▸ rfl) (hconfig ▸ hhost)
  have hvec : pack t.builder.size t.builder.bytes = ⟨words.reverse⟩ := by
    rw [hbuilder]
    exact pack_map_laneOf List.length_reverse
  rw [hvec] at hbuild
  refine ⟨_, hcount ▸ (run_add_next ht 1).trans hbuild, ?_⟩
  obtain ⟨_, _, _, _, rfl⟩ := hst
  exact ⟨State.vreg_setVreg_same _ d _, fun r hr => State.vreg_setVreg_ne _ d r _ hr.symm,
    rfl, rfl, rfl, rfl, rfl, rfl⟩

end

section
/-! The text of commands, and the accesses of the two host primitives (spec/30_encoding.md R60). -/

namespace Sys2Proof.Machine

/-- The names `v0` to `v15` are told apart. -/
theorem parseVReg_vregText : ∀ r : VReg, parseVReg (vregText r).toList = some r := by decide

/-- Parsing the name of a register goes on with the register. -/
theorem bind_parseVReg {α : Type} (r : VReg) (k : VReg → Option α) :
    (parseVReg (vregText r).toList >>= k) = k r := by
  rw [parseVReg_vregText]
  rfl

/-- Each mnemonic selects its own case, which reads as many registers as the command uses. -/
theorem parseStmt_mnemonic (i : Instr) :
    parseStmt (mnemonic i) ((usedRegs i).map fun r => (vregText r).toList) =
      some (.prim (.cmd i)) := by
  cases i with
  | nop | bnew | bset => rfl
  | vfill r | vsize r | bbuild r | vrdw r => exact bind_parseVReg r _
  | vnot r q | veq r q | vxz r q | vxw r q =>
    exact (bind_parseVReg r _).trans (bind_parseVReg q _)
  | vand d a b | vor d a b =>
    exact (bind_parseVReg d _).trans ((bind_parseVReg a _).trans (bind_parseVReg b _))

end Sys2Proof.Machine

open Sys2Proof Sys2Proof.Machine

/-- Settles O58: the text of a command parses to it (`parseStmt_mnemonic`), and the table of the
statement lists each register at its offset. -/
theorem assemblerStatementsMeanTheirAccesses : Obligations.AssemblerStatementsMeanTheirAccesses := by
  intro c
  refine ⟨fun i => ⟨parseStmt_mnemonic i, rfl⟩, fun r off hentry => ?_⟩
  have hmem : (r, off) ∈ Reg.all.map fun r => (r, r.offset) := hentry
  obtain ⟨q, -, hq⟩ := List.mem_map.mp hmem
  obtain ⟨rfl, rfl⟩ := Prod.mk.inj hq
  exact ⟨fun _ => rfl, rfl⟩

end

section
/-! The bits of `fill` and of the boolean unit, from their words (spec/40_construct_boolean.md R63, R64). -/

namespace Sys2Proof.Machine

theorem sizeOK_eq_false_iff (n : Int) : sizeOK n = false ↔ n ≤ 0 ∨ n % 32 ≠ 0 := by
  rw [← Bool.not_eq_true, sizeOK_iff]
  omega

theorem Vec.div_lt_nw {v : Vec} {i : Nat} (h : i < v.size) : i / 32 < v.nw := by
  rw [Vec.size_eq] at h
  omega

theorem Vec.size_div (v : Vec) : v.size / 32 = v.nw := by
  rw [Vec.size_eq]
  omega

theorem Vec.size_eq_of_nw_eq {v w : Vec} (h : v.nw = w.nw) : v.size = w.size := by
  rw [Vec.size_eq, Vec.size_eq, h]

/-- The word of a uniform vector, bit by bit. -/
theorem getLsbD_uniformWord (b : Bool) {t : Nat} (h : t < 32) :
    (if b then 0xFFFFFFFF else 0x00000000 : Word).getLsbD t = b := by
  have hones : (0xFFFFFFFF : Word) = BitVec.allOnes 32 := rfl
  cases b with
  | false => exact BitVec.getLsbD_zero
  | true => rw [if_pos rfl, hones, BitVec.getLsbD_allOnes, decide_eq_true h]

theorem bit_fill {n : Nat} (hn : n % 32 = 0) (b : Bool) {i : Nat} (h : i < n) :
    (fill n b).bit i = b := by
  rw [Vec.bit, word_fill b (by omega), getLsbD_uniformWord b (Nat.mod_lt i (by decide))]

theorem size_fill {n : Nat} (hn : n % 32 = 0) (b : Bool) : (fill n b).size = n := by
  rw [Vec.size_eq, nw_fill]
  omega

theorem size_vnot (a : Vec) : (vnot a).size = a.size :=
  Vec.size_eq_of_nw_eq (nw_vnot a)

theorem bit_vnot (a : Vec) {i : Nat} (h : i < a.size) : (vnot a).bit i = !a.bit i := by
  have ht : i % 32 < 32 := Nat.mod_lt i (by decide)
  rw [Vec.bit, word_vnot a (Vec.div_lt_nw h), BitVec.getLsbD_not, decide_eq_true ht, Bool.true_and]
  rfl

section binary
variable {a b : Vec} (h : a.nw = b.nw)
include h

theorem size_vand : (vand a b).size = a.size := Vec.size_eq_of_nw_eq (nw_vand h)

theorem size_vor : (vor a b).size = a.size := Vec.size_eq_of_nw_eq (nw_vor h)

theorem bit_vand {i : Nat} (hi : i < a.size) : (vand a b).bit i = (a.bit i && b.bit i) := by
  rw [Vec.bit, word_vand h (Vec.div_lt_nw hi), BitVec.getLsbD_and]
  rfl

theorem bit_vor {i : Nat} (hi : i < a.size) : (vor a b).bit i = (a.bit i || b.bit i) := by
  rw [Vec.bit, word_vor h (Vec.div_lt_nw hi), BitVec.getLsbD_or]
  rfl

end binary

end Sys2Proof.Machine

open Sys2Proof Sys2Proof.Machine

/-- Settles O23: every word of `fill` is uniform (`word_fill`), so every bit is (`bit_fill`). -/
theorem fillIsUniform : Obligations.FillIsUniform := by
  refine ⟨sizeOK_iff, fun n b hn => ?_⟩
  have hn32 : n % 32 = 0 := by
    rw [sizeOK_iff] at hn
    omega
  exact ⟨size_fill hn32 b, fun k hk => word_fill b hk, fun i hi => bit_fill hn32 b hi⟩

/-- Settles O24: each lane of the results depends on the operands' lane alone (`word_vnot`, `word_vand`,
`word_vor`), and each bit on the operands' bit (`bit_vnot`, `bit_vand`, `bit_vor`). -/
theorem booleanUnitWorksBitByBit : Obligations.BooleanUnitWorksBitByBit := by
  intro a b hsize
  have hnw : a.nw = b.nw := Vec.nw_eq_of_size_eq hsize
  refine ⟨⟨?_, ?_, ?_⟩, fun k hk => ⟨?_, ?_, ?_⟩, fun i hi => ⟨?_, ?_, ?_⟩⟩
  · exact size_vnot a
  · exact size_vand hnw
  · exact size_vor hnw
  · exact word_vnot a hk
  · exact word_vand hnw hk
  · exact word_vor hnw hk
  · exact bit_vnot a hi
  · exact bit_vand hnw hi
  · exact bit_vor hnw hi

end

section
/-! The laws of the boolean unit (spec/40_construct_boolean.md R71), lifted from words to vectors. -/

namespace Sys2Proof.Machine

theorem vand_comm (a b : Vec) : vand a b = vand b a :=
  congrArg Vec.mk (List.zipWith_comm_of_comm BitVec.and_comm)

theorem vor_comm (a b : Vec) : vor a b = vor b a :=
  congrArg Vec.mk (List.zipWith_comm_of_comm BitVec.or_comm)

theorem vand_assoc (a b c : Vec) : vand (vand a b) c = vand a (vand b c) := by
  simp only [vand, List.zipWith_zipWith_left, List.zipWith_zipWith_right, BitVec.and_assoc]

theorem vor_assoc (a b c : Vec) : vor (vor a b) c = vor a (vor b c) := by
  simp only [vor, List.zipWith_zipWith_left, List.zipWith_zipWith_right, BitVec.or_assoc]

/-- De Morgan's law, lane by lane. -/
theorem vnot_vand (a b : Vec) : vnot (vand a b) = vor (vnot a) (vnot b) := by
  simp only [vnot, vand, vor, List.map_zipWith, List.zipWith_map, BitVec.not_and]

theorem nw_fill_size (a : Vec) (b : Bool) : (fill a.size b).nw = a.nw := by
  rw [nw_fill, Vec.size_div]

/-- The all-zero vector absorbs under `vand`. -/
theorem vand_fill_false (a : Vec) : vand a (fill a.size false) = fill a.size false := by
  have hnw := (nw_fill_size a false).symm
  refine Vec.ext_bit ((size_vand hnw).trans (size_fill a.size_mod false).symm) fun i hi => ?_
  rw [size_vand hnw] at hi
  rw [bit_vand hnw hi, bit_fill a.size_mod false hi, Bool.and_false]

/-- The all-one vector absorbs under `vor`. -/
theorem vor_fill_true (a : Vec) : vor a (fill a.size true) = fill a.size true := by
  have hnw := (nw_fill_size a true).symm
  refine Vec.ext_bit ((size_vor hnw).trans (size_fill a.size_mod true).symm) fun i hi => ?_
  rw [size_vor hnw] at hi
  rw [bit_vor hnw hi, bit_fill a.size_mod true hi, Bool.or_true]

end Sys2Proof.Machine

open Sys2Proof Sys2Proof.Machine

/-- Settles O25: each law is the law of words in every lane; those of the uniform vectors need the sizes
to agree. -/
theorem booleanLawsHold : Obligations.BooleanLawsHold :=
  fun a b c _ _ =>
    ⟨vnot_vnot a, vand_comm a b, vand_assoc a b c, vand_self a, vor_comm a b, vor_assoc a b c,
      vor_self a, vnot_vand a b, vand_fill_false a, vor_fill_true a⟩

end

section
/-! What each kind of command leaves as it was (spec/40_construct_boolean.md R72; spec/10_state.md R17,
R20, R21, R30; spec/43_readout_control.md R93). -/

namespace Sys2Proof.Machine

variable {s t : State} {i : Instr}

/-- No command writes what the host writes: the arguments and `CMD` (R20, R21, R24). -/
theorem CommandEffect.hostRegs_eq (h : CommandEffect s i t) :
    t.arg0 = s.arg0 ∧ t.arg1 = s.arg1 ∧ t.cmd = s.cmd := by
  cases h <;> exact ⟨rfl, rfl, rfl⟩

theorem CommandEffect.readData_eq (h : CommandEffect s i t) : t.readData = s.readData := by
  cases h <;> rfl

theorem CommandEffect.vreg_eq {r : VReg} (h : CommandEffect s i t) (hi : ¬ i.WritesVreg r) :
    t.vreg r = s.vreg r :=
  (h.vreg_cases r).resolve_right fun ⟨hw, _⟩ => hi hw

theorem CommandEffect.builder_eq (h : CommandEffect s i t) (hnew : i ≠ .bnew) (hset : i ≠ .bset)
    (hbuild : ∀ d, i ≠ .bbuild d) : t.builder = s.builder := by
  cases h with
  | raises | idles | writesResult | writesVreg => rfl
  | opensBuilder n => exact absurd rfl hnew
  | setsByte k x ho => exact absurd rfl hset
  | consumesBuilder d ho => exact absurd rfl (hbuild d)

theorem CommandEffect.result_eq (h : CommandEffect s i t) (hi : ¬ i.WritesResult) :
    t.result = s.result := by
  cases h with
  | raises | idles | writesVreg | opensBuilder | setsByte | consumesBuilder => rfl
  | writesResult w hw => exact absurd hw hi

end Sys2Proof.Machine

open Sys2Proof Sys2Proof.Machine

/-- Settles O47: each kind of update of `CommandEffect` touches only what it names. -/
theorem commandFrames : Obligations.CommandFrames := by
  intro i s t hexec
  have h : CommandEffect s i t := exec_effect hexec
  obtain ⟨harg0, harg1, hcmd⟩ := h.hostRegs_eq
  refine ⟨h.config_eq, harg0, harg1, hcmd, h.host_eq, h.readData_eq,
    fun r hfill hunary hbinary hbuild => h.vreg_eq ?_, h.builder_eq, fun hread heq => h.result_eq ?_⟩
  · rintro (hi | ⟨a, hi | hi | hi⟩ | ⟨a, b, hi | hi⟩ | hi)
    · exact hfill hi
    · exact (hunary a).1 hi
    · exact (hunary a).2.1 hi
    · exact (hunary a).2.2 hi
    · exact (hbinary a b).1 hi
    · exact (hbinary a b).2 hi
    · exact hbuild hi
  · rintro (⟨a, hi | hi⟩ | ⟨a, b, hi⟩)
    · exact (hread a).1 hi
    · exact (hread a).2 hi
    · exact heq a b hi

end

section
/-! The word of a command as a number (spec/30_encoding.md R50). -/

namespace Sys2Proof

theorem toNat_append_eq_add {m n : Nat} (x : BitVec m) (y : BitVec n) :
    (x ++ y).toNat = 2 ^ n * x.toNat + y.toNat := by
  rw [BitVec.toNat_append, Nat.shiftLeft_eq, Nat.mul_comm, Nat.two_pow_add_eq_or_of_lt y.isLt]

/-- The fields of a command word with their weights (R50). -/
theorem Cmd.toNat_toWord (c : Cmd) : c.toWord.toNat =
    c.op.toNat + 0x100 * c.vd.toNat + 0x1000 * c.va.toNat + 0x10000 * c.vb.toNat +
      0x100000 * c.rsv.toNat := by
  rw [Cmd.toWord]
  simp only [toNat_append_eq_add]
  omega

theorem toNat_encode (i : Instr) : (encode i).toNat =
    i.cmd.op.toNat + 0x100 * i.cmd.vd.toNat + 0x1000 * i.cmd.va.toNat + 0x10000 * i.cmd.vb.toNat +
      0x100000 * i.cmd.rsv.toNat :=
  i.cmd.toNat_toWord

end Sys2Proof

end

section
/-! What the construction and boolean commands answer under each condition of their rules
(spec/40_construct_boolean.md R65 to R70). -/

namespace Sys2Proof.Machine

variable {s : State} {a b d : VReg} {v w : Vec}

theorem State.sizeArg_eq (s : State) : s.sizeArg = s.arg0.toInt := int32_eq_toInt s.arg0

theorem Config.cast_maxBits (c : Config) : (c.maxBits : Int) = 32 * (c.maxWords : Int) := by
  rw [Config.maxBits_eq, Nat.cast_mul, Nat.cast_ofNat]

/-! ## VFILL -/

theorem execVfill_badSize (h : sizeOK s.sizeArg = false) :
    execVfill d s = .next (s.raised .invalidSize) :=
  needSize_bad h

theorem execVfill_tooBig (h : sizeOK s.sizeArg = true) (hbig : ¬ s.sizeArg ≤ s.config.maxBits) :
    execVfill d s = .next (s.raised .capacityExceeded) :=
  needSize_big h hbig

theorem execVfill_badValue (h : sizeOK s.sizeArg = true) (hcap : s.sizeArg ≤ s.config.maxBits)
    (hvalue : ¬ s.valueArg ≤ 1) : execVfill d s = .next (s.raised .valueOutOfRange) :=
  (needSize_ok h hcap).trans (check_neg hvalue _)

theorem execVfill_legal {bit : Bool} (h : sizeOK s.sizeArg = true)
    (hcap : s.sizeArg ≤ s.config.maxBits) (hvalue : s.arg1 = if bit then 1 else 0) :
    execVfill d s = .next { s.setVreg d (fill s.sizeArg.toNat bit) with err := none } := by
  have hle : s.valueArg ≤ 1 := by
    rw [State.valueArg, hvalue]
    cases bit <;> decide
  have hbit : decide (s.valueArg = 1) = bit := by
    rw [State.valueArg, hvalue]
    cases bit <;> decide
  rw [execVfill, needSize_ok h hcap, check_pos hle, hbit, succeed_eq]

/-! ## One source -/

/-- R66: the size, which is a natural number, taken modulo 2^32. -/
theorem execVsize_of_valid (h : s.vreg a = some v) :
    execVsize a s = .next { s with result := BitVec.ofNat 32 v.size, err := none } := by
  rw [execVsize, needVec_some h, u32, BitVec.ofInt_natCast, succeed_eq]

/-! ## Two sources -/

/-- R19: two sources are read in order, and an invalid one of them raises. -/
theorem needVecs_invalid {k : Vec → Vec → Out} (h : s.vreg a = none ∨ s.vreg b = none) :
    (needVec a s fun va => needVec b s fun vb => k va vb) = .next (s.raised .unwrittenRegister) := by
  cases ha : s.vreg a with
  | none => rw [needVec_none ha]
  | some va => rw [needVec_some ha, needVec_none (h.resolve_left (by simp [ha]))]

theorem needVecs_valid {k : Vec → Vec → Out} (ha : s.vreg a = some v) (hb : s.vreg b = some w) :
    (needVec a s fun va => needVec b s fun vb => k va vb) = k v w := by
  rw [needVec_some ha, needVec_some hb]

section sizes
variable (ha : s.vreg a = some v) (hb : s.vreg b = some w)
include ha hb

theorem execVand_mismatch (h : v.size ≠ w.size) :
    execVand d a b s = .next (s.raised .sizeMismatch) :=
  (needVecs_valid ha hb).trans (check_neg h _)

theorem execVor_mismatch (h : v.size ≠ w.size) :
    execVor d a b s = .next (s.raised .sizeMismatch) :=
  (needVecs_valid ha hb).trans (check_neg h _)

theorem execVand_sameSize (h : v.size = w.size) :
    execVand d a b s = .next { s.setVreg d (vand v w) with err := none } :=
  (needVecs_valid ha hb).trans (check_pos h _)

theorem execVor_sameSize (h : v.size = w.size) :
    execVor d a b s = .next { s.setVreg d (vor v w) with err := none } :=
  (needVecs_valid ha hb).trans (check_pos h _)

theorem execVeq_valid :
    execVeq a b s = .next { s with result := if v = w then 1 else 0, err := none } :=
  needVecs_valid ha hb

end sizes

/-- R15: vectors are equal when their sizes and all their words are. -/
theorem Vec.eq_iff_size_words : v = w ↔ v.size = w.size ∧ ∀ k < v.nw, v.word k = w.word k := by
  constructor
  · rintro rfl
    exact ⟨rfl, fun _ _ => rfl⟩
  · rintro ⟨hsize, hwords⟩
    exact Vec.ext_word (Vec.nw_eq_of_size_eq hsize) hwords

/-- R14: the sizes of legal vectors. -/
theorem State.Inv.size_bounds (hs : s.Inv) (h : s.vreg a = some v) :
    0 < v.size ∧ v.size ≤ 32 * s.config.maxWords := by
  obtain ⟨hpos, hle⟩ := (Vec.wf_iff _ _).mp (hs.vectors a v h)
  rw [Vec.size_eq]
  omega

end Sys2Proof.Machine

open Sys2Proof Sys2Proof.Machine

/-- Settles O9: the conditions are those of the checks of VFILL, in order (`execVfill_badSize`,
`execVfill_tooBig`, `execVfill_badValue`, `execVfill_legal`). -/
theorem vfillFillsOrRaises : Obligations.VfillFillsOrRaises := by
  intro d s
  rw [← State.sizeArg_eq, ← Config.cast_maxBits]
  have hok (hpos : 0 < s.sizeArg) (hmod : s.sizeArg % 32 = 0) : sizeOK s.sizeArg = true :=
    (sizeOK_iff _).mpr ⟨hpos, hmod⟩
  refine ⟨toNat_encode (.vfill d), fun hbad => ?_, fun hpos hmod hbig => ?_,
    fun hpos hmod hcap hvalue => ?_, fun bit hpos hmod hcap hvalue => ?_⟩
  · exact execVfill_badSize ((sizeOK_eq_false_iff _).mpr hbad)
  · exact execVfill_tooBig (hok hpos hmod) hbig.not_ge
  · exact execVfill_badValue (hok hpos hmod) hcap hvalue.not_ge
  · exact execVfill_legal (hok hpos hmod) hcap hvalue

/-- Settles O10: a legal vector's size is bounded by the invariant (`State.Inv.size_bounds`). -/
theorem vsizeReturnsTheSize : Obligations.VsizeReturnsTheSize := by
  intro a s
  refine ⟨toNat_encode (.vsize a), fun ha => needVec_none ha, fun v ha => ?_, fun v hs ha => ?_⟩
  · exact execVsize_of_valid ha
  · obtain ⟨hpos, hle⟩ := hs.size_bounds ha
    exact ⟨hpos, v.size_mod, hle⟩

/-- Settles O11: one source read, then the complement written (`execVnot_of_valid`). -/
theorem vnotComplements : Obligations.VnotComplements := by
  intro d a s
  exact ⟨toNat_encode (.vnot d a), fun ha => needVec_none ha, fun v ha => execVnot_of_valid ha,
    fun v => ⟨size_vnot v, vnot_vnot v⟩⟩

/-- Settles O12: two sources read, then their sizes compared; `vand_self` for one source twice. -/
theorem vandConjoins : Obligations.VandConjoins := by
  intro d a b s
  refine ⟨toNat_encode (.vand d a b), fun h => needVecs_invalid h,
    fun v w ha hb h => execVand_mismatch ha hb h, fun v w ha hb h => execVand_sameSize ha hb h,
    fun v ha => ?_⟩
  have h : execVand d a a s = .next { s.setVreg d (vand v v) with err := none } :=
    execVand_sameSize ha ha rfl
  rwa [vand_self] at h

/-- Settles O13: two sources read, then their sizes compared; `vor_self` for one source twice. -/
theorem vorDisjoins : Obligations.VorDisjoins := by
  intro d a b s
  refine ⟨toNat_encode (.vor d a b), fun h => needVecs_invalid h,
    fun v w ha hb h => execVor_mismatch ha hb h, fun v w ha hb h => execVor_sameSize ha hb h,
    fun v ha => ?_⟩
  have h : execVor d a a s = .next { s.setVreg d (vor v v) with err := none } :=
    execVor_sameSize ha ha rfl
  rwa [vor_self] at h

/-- Settles O14: the model compares vectors as values, which is R15's equality
(`Vec.eq_iff_size_words`). -/
theorem veqComparesSizeAndWords : Obligations.VeqComparesSizeAndWords := by
  intro a b s
  refine ⟨toNat_encode (.veq a b), fun h => needVecs_invalid h, fun v w ha hb h => ?_,
    fun v w ha hb h => ?_⟩
  · rw [← Vec.eq_iff_size_words] at h
    exact (execVeq_valid ha hb).trans (by rw [if_pos h])
  · rw [← Vec.eq_iff_size_words] at h
    exact (execVeq_valid ha hb).trans (by rw [if_neg h])

end

section
/-! The bits of both extractions, and the laws that follow bit by bit (spec/41_extract.md R75, R76, R81,
R82). -/

namespace Sys2Proof.Machine

theorem mod_of_sizeOK {n : Nat} (h : sizeOK n = true) : n % 32 = 0 := by
  rw [sizeOK_iff] at h
  omega

/-- A vector reads as zeros above its size (log entry 13). -/
theorem Vec.bit_of_size_le {v : Vec} {s : Nat} (h : v.size ≤ s) : v.bit s = false := by
  have hs : v.words.length ≤ s / 32 := by
    rw [Vec.size_eq, Vec.nw] at h
    omega
  rw [Vec.bit, Vec.word, List.getD_eq_default _ _ hs]
  exact BitVec.getLsbD_zero

section bits
variable {v : Vec} {start : Int} {n i : Nat} (hn : n % 32 = 0)
include hn

theorem size_extractZ : (extractZ v start n).size = n := size_mkvec hn _

theorem size_extractW : (extractW v start n).size = n := size_mkvec hn _

theorem bit_extractZ_eq_ite (hi : i < n) : (extractZ v start n).bit i =
    if 0 ≤ start + i ∧ start + i < v.size then v.bit (start + i).toNat else false :=
  bit_mkvec hn _ hi

/-- R75 for a source index that is not negative: above the vector both sides are zero. -/
theorem bit_extractZ {s : Nat} (hi : i < n) (hs : start + i = s) :
    (extractZ v start n).bit i = v.bit s := by
  rw [bit_extractZ_eq_ite hn hi, hs, Int.toNat_natCast]
  by_cases hlt : s < v.size
  · exact if_pos (by omega)
  · rw [Vec.bit_of_size_le (not_lt.mp hlt), ite_self]

theorem bit_extractZ_of_neg (hi : i < n) (hs : start + i < 0) :
    (extractZ v start n).bit i = false := by
  rw [bit_extractZ_eq_ite hn hi, if_neg (by omega)]

theorem bit_extractZ_outside (hi : i < n) (hs : start + i < 0 ∨ (v.size : Int) ≤ start + i) :
    (extractZ v start n).bit i = false := by
  rcases hs with hneg | habove
  · exact bit_extractZ_of_neg hn hi hneg
  · obtain ⟨s, hs⟩ := Int.eq_ofNat_of_zero_le (show 0 ≤ start + i by omega)
    rw [bit_extractZ hn hi hs, Vec.bit_of_size_le (by omega)]

/-- R76, with the modulo of the library. -/
theorem bit_extractW (hv : 0 < v.size) (hi : i < n) :
    (extractW v start n).bit i = v.bit ((start + i) % v.size).toNat := by
  rw [extractW, bit_mkvec hn _ hi, floorMod_eq_emod _ (by omega)]

/-- R76 for a residue that is given. -/
theorem bit_extractW_of_residue {s : Nat} {q : Int} (hi : i < n) (hs : s < v.size)
    (hq : start + i = v.size * q + s) : (extractW v start n).bit i = v.bit s := by
  have hmod : (start + i) % v.size = s := by
    rw [hq, Int.mul_add_emod_self_left, Int.emod_eq_of_lt (by omega) (by omega)]
  rw [bit_extractW hn (by omega) hi, hmod, Int.toNat_natCast]

end bits

end Sys2Proof.Machine

open Sys2Proof Sys2Proof.Machine

/-- Settles O26: `bit_extractZ` inside the source, `bit_extractZ_outside` on both sides of it. -/
theorem zeroExtractionBits : Obligations.ZeroExtractionBits := by
  intro v start size hsize
  have hn := mod_of_sizeOK hsize
  exact ⟨size_extractZ hn, fun i s hi hs _ => bit_extractZ hn hi hs,
    fun i hi hout => bit_extractZ_outside hn hi hout⟩

/-- Settles O27: a residue below the size is the modulo (`bit_extractW_of_residue`). -/
theorem wrappedExtractionBits : Obligations.WrappedExtractionBits := by
  intro v start size hsize _
  have hn := mod_of_sizeOK hsize
  exact ⟨size_extractW hn, fun i s hi hs ⟨q, hq⟩ => bit_extractW_of_residue hn hi hs hq⟩

/-- Settles O29: no index of the window leaves the source, so every bit is the slice's. -/
theorem extractionsAgreeInRange : Obligations.ExtractionsAgreeInRange := by
  intro v start size hsize hrange
  have hn := mod_of_sizeOK hsize
  have hZ : extractZ v start size = mkvec size fun i => v.bit (start + i) := by
    refine Vec.ext_bit ((size_extractZ hn).trans (size_mkvec hn _).symm) fun i hi => ?_
    rw [size_extractZ hn] at hi
    rw [bit_extractZ hn hi (Nat.cast_add start i).symm, bit_mkvec hn _ hi]
  have hW : extractW v start size = mkvec size fun i => v.bit (start + i) := by
    refine Vec.ext_bit ((size_extractW hn).trans (size_mkvec hn _).symm) fun i hi => ?_
    rw [size_extractW hn] at hi
    have hres : (start : Int) + i = v.size * 0 + (start + i : Nat) := by omega
    rw [bit_extractW_of_residue hn hi (by omega) hres, bit_mkvec hn _ hi]
  exact ⟨hZ.trans hW.symm, hZ⟩

/-- Settles O30: each law compares two vectors of one size bit by bit. -/
theorem extractionIdentityPeriodAndRange : Obligations.ExtractionIdentityPeriodAndRange := by
  intro v hv
  refine ⟨?identityZ, ?identityW, fun start k size hsize => ?period,
    fun start size hsize hout => ?range⟩
  case identityZ =>
    refine Vec.ext_bit (size_extractZ v.size_mod) fun i hi => ?_
    rw [size_extractZ v.size_mod] at hi
    exact bit_extractZ v.size_mod hi (Int.zero_add _)
  case identityW =>
    refine Vec.ext_bit (size_extractW v.size_mod) fun i hi => ?_
    rw [size_extractW v.size_mod] at hi
    exact bit_extractW_of_residue (q := 0) v.size_mod hi hi (by omega)
  case period =>
    have hn := mod_of_sizeOK hsize
    refine Vec.ext_bit ((size_extractW hn).trans (size_extractW hn).symm) fun i hi => ?_
    rw [size_extractW hn] at hi
    rw [bit_extractW hn hv hi, bit_extractW hn hv hi, Int.add_right_comm,
      Int.add_mul_emod_self_right]
  case range =>
    have hn := mod_of_sizeOK hsize
    refine Vec.ext_bit ((size_extractZ hn).trans (size_fill hn false).symm) fun i hi => ?_
    rw [size_extractZ hn] at hi
    rw [bit_extractZ_outside hn hi (by omega), bit_fill hn false hi]

end

section
/-! The funnel shift of spec/41_extract.md R77: every bit of its window is a bit of one source word, and
over both word sources that is the bit the extraction takes. -/

namespace Sys2Proof.Machine

/-- R77, bit `t` of output word `j`: its source index `s` has bit `s mod 32` of source word
`floorDiv(s, 32)`. -/
theorem getLsbD_funnelWord (W : Int → Word) (start : Int) (j : Nat) {t : Nat} (ht : t < 32) {s : Int}
    (hs : s = start + (32 * j + t : Nat)) :
    (funnelWord W start j).getLsbD t = (W (s / 32)).getLsbD (s % 32).toNat := by
  rw [funnelWord, floorDiv_eq_ediv _ (by decide), floorMod_eq_emod _ (by decide)]
  obtain ⟨r, hr⟩ := Int.eq_ofNat_of_zero_le (Int.emod_nonneg start (by decide : (32 : Int) ≠ 0))
  have hr32 : r < 32 := by omega
  simp only [hr, Int.toNat_natCast]
  by_cases hlow : r + t < 32
  · have hdiv : s / 32 = start / 32 + j := by omega
    have hmod : (s % 32).toNat = r + t := by omega
    rw [hdiv, hmod]
    split
    · next h0 => rw [h0, Nat.zero_add]
    · have hshift : t < 32 - r := by omega
      simp [hshift]
  · have hdiv : s / 32 = start / 32 + j + 1 := by omega
    have hmod : (s % 32).toNat = t - (32 - r) := by omega
    have h0 : r ≠ 0 := by omega
    have hshift : ¬ t < 32 - r := by omega
    rw [hdiv, hmod, if_neg h0, BitVec.getLsbD_or, BitVec.getLsbD_ushiftRight,
      BitVec.getLsbD_of_ge _ _ (not_lt.mp hlow), BitVec.getLsbD_shiftLeft]
    simp only [ht, hshift, decide_true, decide_false, Bool.not_false, Bool.true_and, Bool.false_or]

theorem size_funnel (W : Int → Word) (start : Int) {n : Nat} (hn : n % 32 = 0) :
    (funnel W start n).size = n := by
  rw [Vec.size_eq, nw_funnel]
  omega

theorem bit_funnel (W : Int → Word) (start : Int) {n i : Nat} (hn : n % 32 = 0) (hi : i < n) :
    (funnel W start n).bit i = (W ((start + i) / 32)).getLsbD ((start + i) % 32).toNat := by
  rw [Vec.bit, word_funnel W start (by omega)]
  exact getLsbD_funnelWord W start (i / 32) (Nat.mod_lt i (by decide)) (by rw [Nat.div_add_mod])

/-! ## The word sources, bit by bit -/

theorem getLsbD_wordZ_natCast (v : Vec) (s : Nat) :
    (wordZ v ((s : Int) / 32)).getLsbD ((s : Int) % 32).toNat = v.bit s := by
  have hdiv : ((s : Int) / 32).toNat = s / 32 := by omega
  have hmod : ((s : Int) % 32).toNat = s % 32 := by omega
  rw [wordZ, hdiv, hmod]
  split
  · rfl
  · have hs : v.size ≤ s := by
      rw [Vec.size_eq]
      omega
    rw [Vec.bit_of_size_le hs]
    exact BitVec.getLsbD_zero

theorem getLsbD_wordZ_of_neg (v : Vec) {s : Int} (hs : s < 0) (t : Nat) :
    (wordZ v (s / 32)).getLsbD t = false := by
  rw [wordZ, if_neg (by omega)]
  exact BitVec.getLsbD_zero

/-- Wrapping word indexes modulo the number of words is wrapping bit indexes modulo the size. -/
theorem emod_mul_eq (s : Int) {m : Int} (hm : 0 < m) : s % (32 * m) = 32 * (s / 32 % m) + s % 32 := by
  have hword := Int.mul_ediv_add_emod (s / 32) m
  have hbit := Int.mul_ediv_add_emod s 32
  have hpos := Int.emod_nonneg (s / 32) hm.ne'
  have hlt := Int.emod_lt_of_pos (s / 32) hm
  have hsplit : 32 * (s / 32 % m) + s % 32 + 32 * m * (s / 32 / m) = s := by
    linear_combination 32 * hword + hbit
  exact ((Int.ediv_emod_unique (by omega)).mpr ⟨hsplit, by omega, by omega⟩).2

theorem getLsbD_wordW {v : Vec} (hv : 0 < v.size) (s : Int) :
    (wordW v (s / 32)).getLsbD (s % 32).toNat = v.bit (s % v.size).toNat := by
  rw [Vec.size_eq] at hv ⊢
  have hnw : (0 : Int) < v.nw := by omega
  have hpos := Int.emod_nonneg (s / 32) hnw.ne'
  have hindex : (s % (32 * v.nw)).toNat / 32 = (s / 32 % v.nw).toNat := by
    rw [emod_mul_eq s hnw]
    omega
  have hlane : (s % (32 * v.nw)).toNat % 32 = (s % 32).toNat := by
    rw [emod_mul_eq s hnw]
    omega
  rw [wordW, floorMod_eq_emod _ hnw, Vec.bit, Nat.cast_mul, Nat.cast_ofNat, hindex, hlane]

/-! ## Both extractions -/

theorem extractZ_eq_funnel (v : Vec) (start : Int) {n : Nat} (hn : n % 32 = 0) :
    extractZ v start n = funnel (wordZ v) start n := by
  refine Vec.ext_bit ((size_extractZ hn).trans (size_funnel _ start hn).symm) fun i hi => ?_
  rw [size_extractZ hn] at hi
  rw [bit_funnel _ start hn hi]
  rcases lt_or_ge (start + i) 0 with hneg | hpos
  · rw [bit_extractZ_of_neg hn hi hneg, getLsbD_wordZ_of_neg v hneg]
  · obtain ⟨s, hs⟩ := Int.eq_ofNat_of_zero_le hpos
    rw [bit_extractZ hn hi hs, hs]
    exact (getLsbD_wordZ_natCast v s).symm

theorem extractW_eq_funnel {v : Vec} (hv : 0 < v.size) (start : Int) {n : Nat} (hn : n % 32 = 0) :
    extractW v start n = funnel (wordW v) start n := by
  refine Vec.ext_bit ((size_extractW hn).trans (size_funnel _ start hn).symm) fun i hi => ?_
  rw [size_extractW hn] at hi
  rw [bit_extractW hn hv hi, bit_funnel _ start hn hi, getLsbD_wordW hv]

/-! ## The aligned window at 0 -/

theorem funnelWord_zero (W : Int → Word) (j : Nat) : funnelWord W 0 j = W j := by
  rw [funnelWord, floorDiv_eq_ediv _ (by decide), floorMod_eq_emod _ (by decide)]
  exact congrArg W (Int.zero_add _)

theorem wordW_natCast {v : Vec} (hv : 0 < v.nw) (k : Nat) : wordW v k = v.word (k % v.nw) := by
  rw [wordW, floorMod_eq_emod _ (by omega), ← Int.natCast_mod, Int.toNat_natCast]

/-- Reading the words of a vector at all indexes, modulo their number, repeats them. -/
theorem map_word_mod_range (v : Vec) (m : Nat) :
    ((List.range (m * v.nw)).map fun k => v.word (k % v.nw)) = (List.replicate m v.words).flatten := by
  induction m with
  | zero => rw [Nat.zero_mul]; rfl
  | succ m ih =>
    have hfirst : ((List.range v.nw).map fun k => v.word (k % v.nw)) = v.words :=
      List.ext_getElem (by simp [Vec.nw]) fun k hk hk' => by
        simp [Vec.word, Vec.nw, Nat.mod_eq_of_lt hk', hk']
    rw [Nat.succ_mul, Nat.add_comm, List.range_add, List.map_append, List.map_map, hfirst,
      List.replicate_succ, List.flatten_cons, ← ih]
    simp [Function.comp_def]

end Sys2Proof.Machine

open Sys2Proof Sys2Proof.Machine

/-- Settles O28: `extractZ_eq_funnel` and `extractW_eq_funnel`, bit by bit. -/
theorem datapathComputesExtraction : Obligations.DatapathComputesExtraction := by
  intro v start size hsize hv
  have hn := mod_of_sizeOK hsize
  exact ⟨extractZ_eq_funnel v start hn, extractW_eq_funnel hv start hn⟩

/-- Settles O33: the window at 0 is aligned, so the datapath copies words, whose indexes wrap. -/
theorem wrappedExtractionTiles : Obligations.WrappedExtractionTiles := by
  intro v m hv
  have hnw : 0 < v.nw := by
    rw [Vec.size_eq] at hv
    omega
  have hn : m * v.size % 32 = 0 := by rw [Nat.mul_mod, v.size_mod, Nat.mul_zero]
  have hcount : m * v.size / 32 = m * v.nw := by
    rw [Vec.size_eq, Nat.mul_left_comm, Nat.mul_div_cancel_left _ (by decide)]
  calc (extractW v 0 (m * v.size)).words
      = (List.range (m * v.nw)).map (funnelWord (wordW v) 0) := by
        rw [extractW_eq_funnel hv 0 hn, funnel, hcount]
    _ = (List.range (m * v.nw)).map fun k => v.word (k % v.nw) :=
        List.map_congr_left fun k _ => (funnelWord_zero _ k).trans (wordW_natCast hnw k)
    _ = (List.replicate m v.words).flatten := map_word_mod_range v m

end

section
/-! A vector read as an integer (spec/41_extract.md R82): its binary digits are the vector's bits, so
that extraction of the vector's own size is a shift or a rotation of the integer. -/

namespace Sys2Proof.Machine

theorem Vec.toNat_cons (w : Word) (ws : List Word) :
    (Vec.mk (w :: ws)).toNat = 2 ^ 32 * (Vec.mk ws).toNat + w.toNat := Nat.add_comm _ _

theorem Vec.bit_cons_low (w : Word) (ws : List Word) {i : Nat} (h : i < 32) :
    (Vec.mk (w :: ws)).bit i = w.getLsbD i := by
  rw [Vec.bit, Nat.div_eq_of_lt h, Nat.mod_eq_of_lt h]
  rfl

theorem Vec.bit_cons_high (w : Word) (ws : List Word) {i : Nat} (h : 32 ≤ i) :
    (Vec.mk (w :: ws)).bit i = (Vec.mk ws).bit (i - 32) := by
  have hdiv : i / 32 = (i - 32) / 32 + 1 := by omega
  have hmod : i % 32 = (i - 32) % 32 := by omega
  rw [Vec.bit, Vec.bit, hdiv, hmod]
  rfl

/-- The binary digits of the integer are the bits, to any position. -/
theorem Vec.testBit_toNat (v : Vec) (i : Nat) : v.toNat.testBit i = v.bit i := by
  obtain ⟨ws⟩ := v
  induction ws generalizing i with
  | nil => exact (Nat.zero_testBit i).trans (Vec.bit_of_size_le (Nat.zero_le i)).symm
  | cons w ws ih =>
    rw [Vec.toNat_cons, Nat.testBit_two_pow_mul_add _ w.isLt]
    split
    · next h => rw [BitVec.testBit_toNat, Vec.bit_cons_low w ws h]
    · next h => rw [ih, Vec.bit_cons_high w ws (not_lt.mp h)]

theorem Vec.toNat_lt (v : Vec) : v.toNat < 2 ^ v.size :=
  Nat.lt_pow_two_of_testBit _ fun i hi => by rw [v.testBit_toNat, Vec.bit_of_size_le hi]

/-- A vector reads as `x` if its bits are the digits of `x` and `x` has no further ones. -/
theorem Vec.toNat_eq_of_testBit {v : Vec} {x : Nat} (hx : x < 2 ^ v.size)
    (h : ∀ i < v.size, v.bit i = x.testBit i) : v.toNat = x := by
  refine Nat.eq_of_testBit_eq fun i => ?_
  rw [v.testBit_toNat]
  rcases lt_or_ge i v.size with hi | hi
  · exact h i hi
  · have hlt : x < 2 ^ i := hx.trans_le (Nat.pow_le_pow_right (by decide) hi)
    rw [Vec.bit_of_size_le hi, Nat.testBit_lt_two_pow hlt]

theorem sum_testBit (x n : Nat) :
    ∑ i ∈ Finset.range n, (x.testBit i).toNat * 2 ^ i = x % 2 ^ n := by
  induction n with
  | zero => rw [Finset.sum_range_zero, pow_zero, Nat.mod_one]
  | succ n ih =>
    rw [Finset.sum_range_succ, ih, Nat.mod_pow_succ, Nat.toNat_testBit, Nat.mul_comm]

theorem Vec.toNat_eq_sum (v : Vec) :
    v.toNat = ∑ i ∈ Finset.range v.size, (v.bit i).toNat * 2 ^ i := by
  simp only [← v.testBit_toNat]
  rw [sum_testBit, Nat.mod_eq_of_lt v.toNat_lt]

/-- R82 law 2. -/
theorem toNat_extractZ_right (v : Vec) (k : Nat) :
    (extractZ v k v.size).toNat = v.toNat / 2 ^ k := by
  have hsize : (extractZ v k v.size).size = v.size := size_extractZ v.size_mod
  refine Vec.toNat_eq_of_testBit ?_ fun i hi => ?_
  · rw [hsize]
    exact (Nat.div_le_self _ _).trans_lt v.toNat_lt
  · rw [hsize] at hi
    rw [Nat.testBit_div_two_pow, v.testBit_toNat]
    exact bit_extractZ v.size_mod hi (by omega)

/-- R82 law 3. -/
theorem toNat_extractZ_left (v : Vec) (k : Nat) :
    (extractZ v (-k) v.size).toNat = v.toNat * 2 ^ k % 2 ^ v.size := by
  have hsize : (extractZ v (-k) v.size).size = v.size := size_extractZ v.size_mod
  refine Vec.toNat_eq_of_testBit ?_ fun i hi => ?_
  · rw [hsize]
    exact Nat.mod_lt _ (by positivity)
  · rw [hsize] at hi
    rw [Nat.testBit_mod_two_pow, Nat.testBit_mul_two_pow, v.testBit_toNat, decide_eq_true hi,
      Bool.true_and]
    by_cases hk : k ≤ i
    · rw [decide_eq_true hk, Bool.true_and]
      exact bit_extractZ v.size_mod hi (by omega)
    · rw [decide_eq_false hk, Bool.false_and]
      exact bit_extractZ_of_neg v.size_mod hi (by omega)

/-! ## Rotation -/

/-- The integer `x` of `n` bits rotated right by `r` (R82 law 4). -/
def rotateRight (n x r : Nat) : Nat := x / 2 ^ r + x % 2 ^ r * 2 ^ (n - r)

section rotateRight
variable {n x r : Nat} (hx : x < 2 ^ n) (hr : r < n)
include hx hr

theorem testBit_rotateRight (i : Nat) : (rotateRight n x r).testBit i =
    if i < n - r then x.testBit (i + r) else (x % 2 ^ r).testBit (i - (n - r)) := by
  have hhigh : x / 2 ^ r < 2 ^ (n - r) := by
    rwa [Nat.div_lt_iff_lt_mul (by positivity), ← pow_add, Nat.sub_add_cancel hr.le]
  rw [rotateRight, Nat.add_comm, Nat.mul_comm, Nat.testBit_two_pow_mul_add _ hhigh,
    Nat.testBit_div_two_pow]

theorem rotateRight_lt : rotateRight n x r < 2 ^ n :=
  Nat.lt_pow_two_of_testBit _ fun i hi => by
    rw [testBit_rotateRight hx hr, if_neg (by omega), Nat.testBit_mod_two_pow,
      decide_eq_false (by omega), Bool.false_and]

end rotateRight

/-- R82 law 4: the low bits of the window are those from `r` up, and after them the window wraps. -/
theorem toNat_extractW (v : Vec) {k q : Int} {r : Nat} (hr : r < v.size) (hk : k = v.size * q + r) :
    (extractW v k v.size).toNat = rotateRight v.size v.toNat r := by
  have hsize : (extractW v k v.size).size = v.size := size_extractW v.size_mod
  refine Vec.toNat_eq_of_testBit ?_ fun i hi => ?_
  · rw [hsize]
    exact rotateRight_lt v.toNat_lt hr
  rw [hsize] at hi
  rw [testBit_rotateRight v.toNat_lt hr]
  split
  · next hlow =>
    rw [v.testBit_toNat]
    exact bit_extractW_of_residue (q := q) v.size_mod hi (by omega) (by omega)
  · next hwrap =>
    have hs : i - (v.size - r) < r := by omega
    rw [Nat.testBit_mod_two_pow, decide_eq_true hs, Bool.true_and, v.testBit_toNat]
    refine bit_extractW_of_residue (q := q + 1) v.size_mod hi (hs.trans hr) ?_
    rw [hk, Int.mul_add, Int.mul_one]
    omega

end Sys2Proof.Machine

open Sys2Proof Sys2Proof.Machine

/-- Settles O31: the integer's digits are the bits (`Vec.testBit_toNat`), which both extractions move. -/
theorem zeroExtractionShifts : Obligations.ZeroExtractionShifts :=
  fun v => ⟨v.toNat_eq_sum, fun k => ⟨toNat_extractZ_right v k, toNat_extractZ_left v k⟩⟩

/-- Settles O32: the statement writes out the rotation (`toNat_extractW`). -/
theorem wrappedExtractionRotates : Obligations.WrappedExtractionRotates :=
  fun v _ _ hr ⟨_, hk⟩ => toNat_extractW v hr hk

end

section
/-! What the extraction commands answer under each condition of their rules (spec/41_extract.md R79,
R80). -/

namespace Sys2Proof.Machine

variable {s : State} {d a : VReg} {k : Vec → Nat → Out}

theorem State.startArg_eq (s : State) : s.startArg = s.arg0.toInt := int32_eq_toInt s.arg0

theorem State.windowArg_eq (s : State) : s.windowArg = s.arg1.toInt := int32_eq_toInt s.arg1

/-- The checks VXZ and VXW share, on the source register `a`, before they go on with `k`. -/
def needWindow (a : VReg) (s : State) (k : Vec → Nat → Out) : Out :=
  needVec a s fun v => needSize s.windowArg .invalidWindowSize s (k v)

theorem exec_vxz : exec (.vxz d a) s =
    needWindow a s fun v n => succeed (s.setVreg d (extractZ v s.startArg n)) := rfl

theorem exec_vxw : exec (.vxw d a) s =
    needWindow a s fun v n => succeed (s.setVreg d (extractW v s.startArg n)) := rfl

/-- R79, R80: the errors in check order, and the continuation when there is none; no condition names
the start. -/
theorem needWindow_answers :
    (s.vreg a = none → needWindow a s k = .next (s.raised .unwrittenRegister)) ∧
    (∀ v, s.vreg a = some v → (s.windowArg ≤ 0 ∨ s.windowArg % 32 ≠ 0) →
      needWindow a s k = .next (s.raised .invalidWindowSize)) ∧
    (∀ v, s.vreg a = some v → 0 < s.windowArg → s.windowArg % 32 = 0 →
      (s.config.maxBits : Int) < s.windowArg →
      needWindow a s k = .next (s.raised .capacityExceeded)) ∧
    (∀ v, s.vreg a = some v → 0 < s.windowArg → s.windowArg % 32 = 0 →
      s.windowArg ≤ s.config.maxBits → needWindow a s k = k v s.windowArg.toNat) := by
  have hok (hpos : 0 < s.windowArg) (hmod : s.windowArg % 32 = 0) : sizeOK s.windowArg = true :=
    (sizeOK_iff _).mpr ⟨hpos, hmod⟩
  refine ⟨fun ha => needVec_none ha, fun v ha hbad => ?_, fun v ha hpos hmod hbig => ?_,
    fun v ha hpos hmod hcap => ?_⟩
  · exact (needVec_some ha).trans (needSize_bad ((sizeOK_eq_false_iff _).mpr hbad))
  · exact (needVec_some ha).trans (needSize_big (hok hpos hmod) hbig.not_ge)
  · exact (needVec_some ha).trans (needSize_ok (hok hpos hmod) hcap)

end Sys2Proof.Machine

open Sys2Proof Sys2Proof.Machine

/-- Settles O15: the checks of `needWindow`, then the zero-extended window written. -/
theorem vxzExtractsZeroExtended : Obligations.VxzExtractsZeroExtended := by
  intro d a s
  rw [← State.startArg_eq, ← State.windowArg_eq, ← Config.cast_maxBits, exec_vxz]
  exact ⟨toNat_encode (.vxz d a), needWindow_answers⟩

/-- Settles O16: the checks of `needWindow`, then the wrapped window written. -/
theorem vxwExtractsWrapped : Obligations.VxwExtractsWrapped := by
  intro d a s
  rw [← State.startArg_eq, ← State.windowArg_eq, ← Config.cast_maxBits, exec_vxw]
  exact ⟨toNat_encode (.vxw d a), needWindow_answers⟩

end

section
/-! Packing bytes into words (spec/42_builder.md R87, R88): each word of `pack` is four byte lanes, each
bit of it a bit of one byte, and zero bytes give the zero vector. -/

namespace Sys2Proof.Machine

variable {n : Nat}

/-- The lanes of word `k` of a packed vector; an absent byte reads as 0, as in `byteAsWord`. -/
theorem word_pack_eq_wordOfLanes (bytes : List Byte) {k : Nat} (hk : k < n / 32) :
    (pack n bytes).word k = wordOfLanes (bytes.getD (4 * k) 0) (bytes.getD (4 * k + 1) 0)
      (bytes.getD (4 * k + 2) 0) (bytes.getD (4 * k + 3) 0) :=
  (word_pack bytes hk).trans (or_shifts_eq_wordOfLanes _ _ _ _)

/-- Bit `t` of lane `j` of a word given by its lanes (R42). -/
theorem getLsbD_wordOfLanes (b : Nat → Byte) {j t : Nat} (hj : j < 4) (ht : t < 8) :
    (wordOfLanes (b 0) (b 1) (b 2) (b 3)).getLsbD (8 * j + t) = (b j).getLsbD t := by
  simp only [wordOfLanes, BitVec.getLsbD_append]
  obtain rfl | rfl | rfl | rfl : j = 0 ∨ j = 1 ∨ j = 2 ∨ j = 3 := by omega
  all_goals grind

theorem size_pack (hn : n % 32 = 0) (bytes : List Byte) : (pack n bytes).size = n := by
  rw [Vec.size_eq, nw_pack]
  omega

/-- R87: bit `t` of byte `m`, which is lane `m % 4` of word `m / 4`. -/
theorem bit_pack (hn : n % 32 = 0) (bytes : List Byte) {m t : Nat} (hm : m < n / 8) (ht : t < 8) :
    (pack n bytes).bit (8 * m + t) = (bytes.getD m 0).getLsbD t := by
  have hword : (8 * m + t) / 32 = m / 4 := by omega
  have hbit : (8 * m + t) % 32 = 8 * (m % 4) + t := by omega
  have hlane := getLsbD_wordOfLanes (fun j => bytes.getD (4 * (m / 4) + j) 0)
    (Nat.mod_lt m (by decide)) ht
  rw [Nat.div_add_mod] at hlane
  rw [Vec.bit, hword, hbit, word_pack_eq_wordOfLanes bytes (by omega)]
  exact hlane

/-- R88: zero bytes pack to zero words. -/
theorem pack_replicate_zero (n c : Nat) : pack n (List.replicate c 0) = fill n false := by
  refine Vec.ext_word ((nw_pack _ _).trans (nw_fill _ _).symm) fun k hk => ?_
  rw [nw_pack] at hk
  rw [word_pack_eq_wordOfLanes _ hk, word_fill false hk]
  simp only [List.getD_eq_getElem?_getD, List.getElem?_getD_replicate_default_eq]
  rfl

end Sys2Proof.Machine

open Sys2Proof Sys2Proof.Machine

/-- Settles O34: a word is its four lanes (`word_pack_eq_wordOfLanes`), and a bit is found in the lane it
falls in (`bit_pack`). -/
theorem packIsByteZeroLeastSignificant : Obligations.PackIsByteZeroLeastSignificant := by
  intro n bytes hn hlength
  have hn32 : n % 32 = 0 := mod_of_sizeOK hn
  have hbyte {m : Nat} (h : m < bytes.length) : bytes.getD m 0 = bytes[m] :=
    List.getD_eq_getElem bytes 0 h
  refine ⟨size_pack hn32 bytes, fun k h => ?_, fun m t h ht => ?_⟩
  · rw [word_pack_eq_wordOfLanes bytes (by omega), hbyte (by omega), hbyte (by omega),
      hbyte (by omega), hbyte h]
    rfl
  · rw [bit_pack hn32 bytes (hlength ▸ h) ht, hbyte h]

end

section
/-! What BNEW, BSET and BBUILD answer under each condition of their rules (spec/42_builder.md R84 to
R86), and that an empty builder builds what VFILL fills (R88). -/

namespace Sys2Proof.Machine

variable {s : State} {d : VReg}

theorem State.indexArg_eq (s : State) : s.indexArg = s.arg0.toInt := int32_eq_toInt s.arg0

/-! ## BNEW -/

theorem execBnew_badSize (h : sizeOK s.sizeArg = false) :
    execBnew s = .next (s.raised .invalidSize) :=
  needSize_bad h

theorem execBnew_tooBig (h : sizeOK s.sizeArg = true) (hbig : ¬ s.sizeArg ≤ s.config.maxBits) :
    execBnew s = .next (s.raised .capacityExceeded) :=
  needSize_big h hbig

/-- R84: the new builder does not depend on the old one. -/
theorem execBnew_legal (h : sizeOK s.sizeArg = true) (hcap : s.sizeArg ≤ s.config.maxBits) :
    execBnew s = .next { s with err := none, builder :=
      ⟨.opened, s.sizeArg.toNat, List.replicate (s.sizeArg.toNat / 8) 0⟩ } :=
  needSize_ok h hcap

/-! ## BSET and BBUILD of an open builder -/

section opened
variable (ho : s.builder.state = .opened)
include ho

theorem execBset_badIndex (h : ¬ (0 ≤ s.indexArg ∧ s.indexArg < (s.builder.size / 8 : Nat))) :
    execBset s = .next (s.raised .indexOutOfRange) :=
  (needOpen_opened ho).trans (needIndex_bad h)

theorem execBset_inRange (h0 : 0 ≤ s.indexArg) (h1 : s.indexArg < (s.builder.size / 8 : Nat)) :
    execBset s = check (decide (s.valueArg ≤ 0xFF)) .valueOutOfRange s
      (.next { s with err := none, builder := { s.builder with
        bytes := s.builder.bytes.set s.indexArg.toNat (s.arg1.extractLsb' 0 8) } }) :=
  (needOpen_opened ho).trans (needIndex_ok h0 h1)

theorem execBbuild_opened : execBbuild d s = .next {
    s.setVreg d (pack s.builder.size s.builder.bytes) with
      err := none, builder := { s.builder with state := .consumed } } :=
  needOpen_opened ho

end opened

/-- R88: a builder that no BSET has written gives the zero vector of its size. -/
theorem bnew_bbuild_builds_fill (d : VReg) (h : sizeOK s.sizeArg = true)
    (hcap : s.sizeArg ≤ s.config.maxBits) :
    ∃ t u, execBnew s = .next t ∧ execBbuild d t = .next u ∧
      u.vreg d = some (fill s.sizeArg.toNat false) :=
  ⟨_, _, execBnew_legal h hcap, execBbuild_opened rfl,
    (State.vreg_setVreg_same _ d _).trans (congrArg some (pack_replicate_zero _ _))⟩

end Sys2Proof.Machine

open Sys2Proof Sys2Proof.Machine

/-- Settles O17: the conditions are those of the size checks, in order (`execBnew_badSize`,
`execBnew_tooBig`, `execBnew_legal`). -/
theorem bnewOpensAZeroedBuilder : Obligations.BnewOpensAZeroedBuilder := by
  refine ⟨by decide, fun s => ?_⟩
  rw [← State.sizeArg_eq, ← Config.cast_maxBits]
  have hok (hpos : 0 < s.sizeArg) (hmod : s.sizeArg % 32 = 0) : sizeOK s.sizeArg = true :=
    (sizeOK_iff _).mpr ⟨hpos, hmod⟩
  refine ⟨fun hbad => ?_, fun hpos hmod hbig => ?_, fun hpos hmod hcap => ?_⟩
  · exact execBnew_badSize ((sizeOK_eq_false_iff _).mpr hbad)
  · exact execBnew_tooBig (hok hpos hmod) hbig.not_ge
  · exact execBnew_legal (hok hpos hmod) hcap

/-- Settles O18: the builder's state, then the index (`execBset_badIndex`), then the value, which is all
that is left to check (`execBset_inRange`). -/
theorem bsetWritesOneByte : Obligations.BsetWritesOneByte := by
  refine ⟨by decide, fun s => ?_⟩
  rw [← State.indexArg_eq]
  refine ⟨fun hidle => needOpen_idle hidle, fun hconsumed => needOpen_consumed hconsumed,
    fun ho hbad => ?_, fun ho h0 h1 hvalue => ?_, fun ho h0 h1 hvalue => ?_⟩
  · exact execBset_badIndex ho (by omega)
  · exact (execBset_inRange ho h0 h1).trans (check_neg hvalue.not_ge _)
  · exact (execBset_inRange ho h0 h1).trans (check_pos hvalue _)

/-- Settles O19: the builder's state is all that BBUILD checks (`execBbuild_opened`). -/
theorem bbuildPacksAndConsumes : Obligations.BbuildPacksAndConsumes := by
  intro d s
  exact ⟨toNat_encode (.bbuild d), fun hidle => needOpen_idle hidle,
    fun hconsumed => needOpen_consumed hconsumed, fun ho => execBbuild_opened ho⟩

/-- Settles O35: BNEW opens a buffer of zero bytes, and BBUILD packs it to the zero vector
(`pack_replicate_zero`, `bnew_bbuild_builds_fill`). -/
theorem builderAndFillAgree : Obligations.BuilderAndFillAgree := by
  refine ⟨fun n _ => pack_replicate_zero n (n / 8), fun s d => ?_⟩
  rw [← State.sizeArg_eq, ← Config.cast_maxBits]
  intro hpos hmod hcap
  have hok : sizeOK s.sizeArg = true := (sizeOK_iff _).mpr ⟨hpos, hmod⟩
  obtain ⟨t, u, hnew, hbuild, hu⟩ := bnew_bbuild_builds_fill d hok hcap
  have hfill := execVfill_legal (d := d) (s := { s with arg1 := 0 }) (bit := false) hok hcap rfl
  exact ⟨t, u, _, hnew, hbuild, hfill, hu, (State.vreg_setVreg_same _ d _).trans hu.symm⟩

end

section
/-! The life cycle of the builder (spec/42_builder.md R83), and the bits of STATUS that show it
(spec/10_state.md R22). -/

namespace Sys2Proof.Machine

variable {s t : State} {i : Instr} {d : VReg}

/-- R99: a command that raises leaves the builder as it was. -/
theorem CommandEffect.builder_eq_of_err (h : CommandEffect s i t) (herr : t.err ≠ none) :
    t.builder = s.builder := by
  cases h with
  | raises => rfl
  | idles | writesResult | writesVreg | opensBuilder | setsByte | consumesBuilder =>
    exact absurd rfl herr

/-! ## The commands that move the builder, when they succeed -/

theorem execBnew_state (h : execBnew s = .next t) (herr : t.err = none) :
    t.builder.state = .opened := by
  obtain ⟨-, h⟩ | ⟨-, -, h⟩ | ⟨-, -, h⟩ := execBnew_cases h <;> cases h
  · cases herr
  · cases herr
  · rfl

theorem execBset_state (h : execBset s = .next t) (herr : t.err = none) :
    s.builder.state = .opened ∧ t.builder.state = .opened := by
  obtain ⟨-, h⟩ | ⟨-, h⟩ | ⟨ho, ⟨-, h⟩ | ⟨-, -, ⟨-, h⟩ | ⟨-, h⟩⟩⟩ := execBset_cases h <;> cases h
  · cases herr
  · cases herr
  · cases herr
  · cases herr
  · exact ⟨ho, ho⟩

theorem execBbuild_state (h : execBbuild d s = .next t) (herr : t.err = none) :
    s.builder.state = .opened ∧ t.builder.state = .consumed := by
  obtain ⟨-, h⟩ | ⟨-, h⟩ | ⟨ho, h⟩ := execBbuild_cases h <;> cases h
  · cases herr
  · cases herr
  · exact ⟨ho, rfl⟩

/-- R22: bits 9:8 of STATUS are the code of the builder's state. -/
theorem extractLsb'_statusWord_bstate (s : State) :
    s.statusWord.extractLsb' 8 2 = s.builder.state.code := by
  refine BitVec.eq_of_getLsbD_eq fun i hi => ?_
  simp only [State.statusWord, BitVec.getLsbD_extractLsb', BitVec.getLsbD_append]
  grind

end Sys2Proof.Machine

open Sys2Proof Sys2Proof.Machine

/-- Settles O52: a raising command keeps the builder (`CommandEffect.builder_eq_of_err`), as does every
command but BNEW, BSET and BBUILD (`CommandEffect.builder_eq`); a success of these three tells the
builder's state before and after (`execBnew_state`, `execBset_state`, `execBbuild_state`). -/
theorem builderLifeCycle : Obligations.BuilderLifeCycle := by
  refine ⟨fun i s t h => ⟨fun herr => ?_, fun herr => ⟨?_, ?_, ?_, fun hnew hset hbuild => ?_⟩⟩,
    fun d s ho => ?_, fun s es hreset => ?_, fun s => ?_⟩
  · exact congrArg Builder.state ((exec_effect h).builder_eq_of_err herr)
  · rintro rfl
    exact execBnew_state h herr
  · rintro rfl
    exact execBset_state h herr
  · rintro d rfl
    exact execBbuild_state h herr
  · exact congrArg Builder.state ((exec_effect h).builder_eq hnew hset hbuild)
  · exact ⟨_, execBbuild_opened ho, rfl⟩
  · exact ⟨_, step_cons hreset, rfl⟩
  · rw [State.readReg, extractLsb'_statusWord_bstate]
    cases s.builder.state <;> rfl

end

section
/-! Readout, no-op and illegal words (spec/43_readout_control.md R90 to R93): the words that raise
`IllegalCommand`, what VRDW answers, and which commands write `RESULT`. -/

namespace Sys2Proof

theorem Cmd.wf_iff (c : Cmd) :
    c.wf = true ↔ c.rsv = 0 ∧ c.op.toNat ≤ 0x0C ∧ c.unusedZero = true := by
  rw [Cmd.wf, Bool.and_eq_true, Bool.and_eq_true, Cmd.opDefined_iff, Cmd.reservedZero, beq_iff_eq,
    and_assoc]

theorem exists_decode_error_of_not_wf {x : Word} (h : ¬ (Cmd.ofWord x).wf = true) :
    ∃ err, decode x = .error err := by
  obtain ⟨hlegal, -⟩ := legalWordsAreTheWellFormedFields x
  cases hx : decode x with
  | ok i => exact absurd (hlegal.mp ⟨i, hx⟩) h
  | error err => exact ⟨err, rfl⟩

end Sys2Proof

namespace Sys2Proof.Machine

variable {s t : State} {i : Instr} {a : VReg} {v : Vec} {x : Word} {es : List HostEvent}

/-- R92: the check of the word comes before every check of a command, so the state does not matter. -/
theorem step_illegalWord (hhost : s.host = .write (s.config.base + Reg.cmd.offset) 4 x :: es)
    (hx : ¬ (Cmd.ofWord x).wf = true) :
    step s = .next ({ s with host := es, cmd := x }.raised .illegalCommand) := by
  obtain ⟨err, herr⟩ := exists_decode_error_of_not_wf hx
  exact (step_write hhost).trans (runCommand_error herr _)

/-- R93: a command keeps `RESULT`, or it is one that writes it and it has succeeded. -/
theorem CommandEffect.result_cases (h : CommandEffect s i t) :
    t.result = s.result ∨ (i.WritesResult ∧ t.err = none) := by
  cases h with
  | raises | idles | writesVreg | opensBuilder | setsByte | consumesBuilder => exact .inl rfl
  | writesResult w hi => exact .inr ⟨hi, rfl⟩

/-! ## VRDW of a valid source -/

theorem execVrdw_badIndex (ha : s.vreg a = some v) (h : ¬ (0 ≤ s.indexArg ∧ s.indexArg < v.nw)) :
    execVrdw a s = .next (s.raised .indexOutOfRange) :=
  (needVec_some ha).trans (needIndex_bad (v.size_div.symm ▸ h))

theorem execVrdw_inRange {k : Nat} (ha : s.vreg a = some v) (hk : k < v.words.length)
    (harg : s.indexArg = k) :
    execVrdw a s = .next { s with result := v.words[k], err := none } := by
  have hlt : k < v.size / 32 := v.size_div.symm ▸ hk
  have hword : v.word k = v.words[k] := List.getD_eq_getElem _ _ hk
  rw [execVrdw, needVec_some ha, harg, needIndex_ok (Int.natCast_nonneg k) (Int.ofNat_lt.mpr hlt),
    Int.toNat_natCast, hword, succeed_eq]

end Sys2Proof.Machine

open Sys2Proof Sys2Proof.Machine

/-- Settles O3: each of the three faults makes the word not well formed (`Cmd.wf_iff`), and such a word
raises in every state (`step_illegalWord`). -/
theorem illegalWordsRaiseIllegalCommand : Obligations.IllegalWordsRaiseIllegalCommand := by
  intro s x es hhost hbad
  refine step_illegalWord hhost fun hwf => ?_
  obtain ⟨hrsv, hop, hun⟩ := (Cmd.wf_iff _).mp hwf
  obtain hop' | hrsv' | hun' := hbad
  · exact absurd hop (Nat.not_le.mpr hop')
  · exact hrsv' hrsv
  · exact Bool.eq_false_iff.mp hun' hun

/-- Settles O48: only the update `CommandEffect.writesResult` touches `RESULT`. -/
theorem resultChangesOnlyBySuccessfulReaders : Obligations.ResultChangesOnlyBySuccessfulReaders := by
  intro i s t hexec hne
  obtain ⟨hi, herr⟩ := (exec_effect hexec).result_cases.resolve_left hne
  exact ⟨herr, hi⟩

/-- Settles O8: NOP checks nothing (`execNop_eq`), and all fields of its word are zero. -/
theorem nopClearsErr : Obligations.NopClearsErr :=
  ⟨by decide, execNop_eq⟩

/-- Settles O20: the source, then the index against the number of words (`execVrdw_badIndex`,
`execVrdw_inRange`). -/
theorem vrdwReadsOneWord : Obligations.VrdwReadsOneWord := by
  intro a s
  rw [← State.indexArg_eq]
  refine ⟨toNat_encode (.vrdw a), fun ha => needVec_none ha, fun v ha hbad => ?_,
    fun v k hk ha harg => execVrdw_inRange ha hk harg⟩
  exact execVrdw_badIndex ha (by omega)

end

section
/-! The codes of STATUS (spec/10_state.md R22; spec/60_exceptions.md R94), and what a command that raises
has raised, and why (spec/60_exceptions.md R95, R99). -/

namespace Sys2Proof

/-- The commands that make a vector or a builder of `ARG0` bits (R95, codes 1 and 10). -/
def Instr.TakesSize (i : Instr) : Prop := (∃ d, i = .vfill d) ∨ i = .bnew

/-- The commands that take a window of `ARG1` bits (R95, codes 2 and 10). -/
def Instr.TakesWindow (i : Instr) : Prop := ∃ d a, i = .vxz d a ∨ i = .vxw d a

/-- The commands that need an open builder (R95, codes 5 and 8). -/
def Instr.NeedsOpen (i : Instr) : Prop := i = .bset ∨ ∃ d, i = .bbuild d

/-- The commands that have `VR[r]` as a source (R95, code 7). -/
def Instr.ReadsVreg (i : Instr) (r : VReg) : Prop :=
  i = .vsize r ∨ i = .vrdw r ∨ (∃ d, i = .vnot d r ∨ i = .vxz d r ∨ i = .vxw d r) ∨
    (∃ q, i = .veq r q ∨ i = .veq q r) ∨
    ∃ d q, i = .vand d r q ∨ i = .vand d q r ∨ i = .vor d r q ∨ i = .vor d q r

end Sys2Proof

namespace Sys2Proof.Machine

variable {s t : State} {i : Instr} {e : ErrKind}

/-! ## The fields of STATUS -/

theorem extractLsb'_statusWord_err (s : State) : s.statusWord.extractLsb' 0 4 = errCode s.err :=
  BitVec.extractLsb'_append_eq_right

theorem getLsbD_statusWord_anyErr (s : State) : s.statusWord.getLsbD 4 = s.anyErr := by
  simp only [State.statusWord, BitVec.getLsbD_append]
  simp

/-- R22: bits 7:5 of STATUS read as 0. -/
theorem extractLsb'_statusWord_middle (s : State) : s.statusWord.extractLsb' 5 3 = 0 :=
  (BitVec.extractLsb'_append_eq_of_le (w := 4) (by decide)).trans <|
    (BitVec.extractLsb'_append_eq_of_le (w := 1) (by decide)).trans
      BitVec.extractLsb'_append_eq_right

/-- R22: bits 31:10 of STATUS read as 0. -/
theorem extractLsb'_statusWord_high (s : State) : s.statusWord.extractLsb' 10 22 = 0 :=
  (BitVec.extractLsb'_append_eq_of_le (w := 4) (by decide)).trans <|
    (BitVec.extractLsb'_append_eq_of_le (w := 1) (by decide)).trans <|
      (BitVec.extractLsb'_append_eq_of_le (w := 3) (by decide)).trans
        BitVec.extractLsb'_append_eq_left

/-! ## Precision -/

/-- R99: a command that raises changes the two error fields only. -/
theorem CommandEffect.eq_raised_of_err (h : CommandEffect s i t) (herr : t.err = some e) :
    t = s.raised e := by
  cases h with
  | raises =>
    cases herr
    rfl
  | idles | writesResult | writesVreg | opensBuilder | setsByte | consumesBuilder => cases herr

/-- R99, R22: a command that succeeds keeps `ANYERR`. -/
theorem CommandEffect.anyErr_eq_of_success (h : CommandEffect s i t) (herr : t.err = none) :
    t.anyErr = s.anyErr := by
  cases h with
  | raises => cases herr
  | idles | writesResult | writesVreg | opensBuilder | setsByte | consumesBuilder => rfl

/-! ## Causes -/

/-- The rows of R95 for a command that decodes, each with the condition its check tests. -/
inductive RaiseCause (s : State) : Instr → ErrKind → Prop
  | badSize {i : Instr} (hi : i.TakesSize) (hbad : sizeOK s.sizeArg = false) :
      RaiseCause s i .invalidSize
  | badWindow {i : Instr} (hi : i.TakesWindow) (hbad : sizeOK s.windowArg = false) :
      RaiseCause s i .invalidWindowSize
  | mismatch {i : Instr} {d a b : VReg} {v w : Vec} (hi : i = .vand d a b ∨ i = .vor d a b)
      (ha : s.vreg a = some v) (hb : s.vreg b = some w) (hsize : v.size ≠ w.size) :
      RaiseCause s i .sizeMismatch
  | byteIndex (hbad : ¬ (0 ≤ s.indexArg ∧ s.indexArg < (s.builder.size / 8 : Nat))) :
      RaiseCause s .bset .indexOutOfRange
  | wordIndex {a : VReg} {v : Vec} (ha : s.vreg a = some v)
      (hbad : ¬ (0 ≤ s.indexArg ∧ s.indexArg < (v.size / 32 : Nat))) :
      RaiseCause s (.vrdw a) .indexOutOfRange
  | consumed {i : Instr} (hi : i.NeedsOpen) (hb : s.builder.state = .consumed) :
      RaiseCause s i .alreadyBuilt
  | unwritten {i : Instr} {r : VReg} (hi : i.ReadsVreg r) (hr : s.vreg r = none) :
      RaiseCause s i .unwrittenRegister
  | idle {i : Instr} (hi : i.NeedsOpen) (hb : s.builder.state = .idle) :
      RaiseCause s i .noBuilder
  | bitValue (d : VReg) (hbad : ¬ s.valueArg ≤ 1) : RaiseCause s (.vfill d) .valueOutOfRange
  | byteValue (hbad : ¬ s.valueArg ≤ 0xFF) : RaiseCause s .bset .valueOutOfRange
  | bigSize {i : Instr} (hi : i.TakesSize) (hok : sizeOK s.sizeArg = true)
      (hbig : ¬ s.sizeArg ≤ s.config.maxBits) : RaiseCause s i .capacityExceeded
  | bigWindow {i : Instr} (hi : i.TakesWindow) (hok : sizeOK s.windowArg = true)
      (hbig : ¬ s.windowArg ≤ s.config.maxBits) : RaiseCause s i .capacityExceeded

/-- R95: a command that ends with an error has a cause for it. -/
theorem exec_raiseCause (h : exec i s = .next t) (herr : t.err = some e) : RaiseCause s i e := by
  cases i with
  | nop =>
    cases (execNop_eq s).symm.trans h
    cases herr
  | vfill d =>
    obtain ⟨hbad, h⟩ | ⟨hok, hbig, h⟩ | ⟨-, -, hval, h⟩ | ⟨-, -, -, h⟩ := execVfill_cases h <;>
      cases h <;> cases herr
    · exact .badSize (.inl ⟨d, rfl⟩) hbad
    · exact .bigSize (.inl ⟨d, rfl⟩) hok hbig
    · exact .bitValue d hval
  | vsize a =>
    obtain ⟨ha, h⟩ | ⟨v, -, h⟩ := execVsize_cases h <;> cases h <;> cases herr
    exact .unwritten (.inl rfl) ha
  | vnot d a =>
    obtain ⟨ha, h⟩ | ⟨v, -, h⟩ := execVnot_cases h <;> cases h <;> cases herr
    exact .unwritten (.inr (.inr (.inl ⟨d, .inl rfl⟩))) ha
  | vand d a b =>
    obtain ⟨ha | hb, h⟩ | ⟨v, w, ha, hb, ⟨hsize, h⟩ | ⟨-, h⟩⟩ := execVand_cases h <;>
      cases h <;> cases herr
    · exact .unwritten (.inr (.inr (.inr (.inr ⟨d, b, .inl rfl⟩)))) ha
    · exact .unwritten (.inr (.inr (.inr (.inr ⟨d, a, .inr (.inl rfl)⟩)))) hb
    · exact .mismatch (.inl rfl) ha hb hsize
  | vor d a b =>
    obtain ⟨ha | hb, h⟩ | ⟨v, w, ha, hb, ⟨hsize, h⟩ | ⟨-, h⟩⟩ := execVor_cases h <;>
      cases h <;> cases herr
    · exact .unwritten (.inr (.inr (.inr (.inr ⟨d, b, .inr (.inr (.inl rfl))⟩)))) ha
    · exact .unwritten (.inr (.inr (.inr (.inr ⟨d, a, .inr (.inr (.inr rfl))⟩)))) hb
    · exact .mismatch (.inr rfl) ha hb hsize
  | veq a b =>
    obtain ⟨ha | hb, h⟩ | ⟨v, w, -, -, h⟩ := execVeq_cases h <;> cases h <;> cases herr
    · exact .unwritten (.inr (.inr (.inr (.inl ⟨b, .inl rfl⟩)))) ha
    · exact .unwritten (.inr (.inr (.inr (.inl ⟨a, .inr rfl⟩)))) hb
  | vxz d a =>
    obtain ⟨ha, h⟩ | ⟨v, -, ⟨hbad, h⟩ | ⟨hok, hbig, h⟩ | ⟨-, -, h⟩⟩ := execVxz_cases h <;>
      cases h <;> cases herr
    · exact .unwritten (.inr (.inr (.inl ⟨d, .inr (.inl rfl)⟩))) ha
    · exact .badWindow ⟨d, a, .inl rfl⟩ hbad
    · exact .bigWindow ⟨d, a, .inl rfl⟩ hok hbig
  | vxw d a =>
    obtain ⟨ha, h⟩ | ⟨v, -, ⟨hbad, h⟩ | ⟨hok, hbig, h⟩ | ⟨-, -, h⟩⟩ := execVxw_cases h <;>
      cases h <;> cases herr
    · exact .unwritten (.inr (.inr (.inl ⟨d, .inr (.inr rfl)⟩))) ha
    · exact .badWindow ⟨d, a, .inr rfl⟩ hbad
    · exact .bigWindow ⟨d, a, .inr rfl⟩ hok hbig
  | bnew =>
    obtain ⟨hbad, h⟩ | ⟨hok, hbig, h⟩ | ⟨-, -, h⟩ := execBnew_cases h <;> cases h <;> cases herr
    · exact .badSize (.inr rfl) hbad
    · exact .bigSize (.inr rfl) hok hbig
  | bset =>
    obtain ⟨hb, h⟩ | ⟨hb, h⟩ | ⟨-, ⟨hbad, h⟩ | ⟨-, -, ⟨hbad, h⟩ | ⟨-, h⟩⟩⟩ := execBset_cases h <;>
      cases h <;> cases herr
    · exact .idle (.inl rfl) hb
    · exact .consumed (.inl rfl) hb
    · exact .byteIndex hbad
    · exact .byteValue hbad
  | bbuild d =>
    obtain ⟨hb, h⟩ | ⟨hb, h⟩ | ⟨-, h⟩ := execBbuild_cases h <;> cases h <;> cases herr
    · exact .idle (.inr ⟨d, rfl⟩) hb
    · exact .consumed (.inr ⟨d, rfl⟩) hb
  | vrdw a =>
    obtain ⟨ha, h⟩ | ⟨v, ha, ⟨hbad, h⟩ | ⟨-, -, h⟩⟩ := execVrdw_cases h <;> cases h <;> cases herr
    · exact .unwritten (.inr (.inl rfl)) ha
    · exact .wordIndex ha hbad

/-- R92: no command that decodes raises `IllegalCommand`. -/
theorem exec_err_ne_illegalCommand (h : exec i s = .next t) : t.err ≠ some .illegalCommand :=
  fun herr => nomatch exec_raiseCause h herr

/-- R62, R92: a written word raises `IllegalCommand` if and only if it does not decode. -/
theorem runCommand_err_illegalCommand_iff {x : Word} (h : runCommand x s = .next t) :
    t.err = some .illegalCommand ↔ ∃ err, decode x = .error err := by
  cases hx : decode x with
  | ok i =>
    rw [runCommand_ok hx] at h
    exact iff_of_false (exec_err_ne_illegalCommand h) nofun
  | error err =>
    cases (runCommand_error hx s).symm.trans h
    exact iff_of_true rfl ⟨err, rfl⟩

/-- R33, R95: a size that the capacity check refuses has passed the size check. -/
theorem bounds_of_big {n : Int} {c : Config} (hok : sizeOK n = true) (hbig : ¬ n ≤ c.maxBits) :
    0 < n ∧ n % 32 = 0 ∧ 32 * (c.maxWords : Int) < n := by
  obtain ⟨hpos, hmod⟩ := (sizeOK_iff n).mp hok
  rw [Config.cast_maxBits] at hbig
  exact ⟨hpos, hmod, not_le.mp hbig⟩

end Sys2Proof.Machine

open Sys2Proof Sys2Proof.Machine

/-- Settles O44: a command raises or succeeds, and each kind of effect says which fields it writes
(`CommandEffect.eq_raised_of_err`, `CommandEffect.anyErr_eq_of_success`). -/
theorem errorsArePrecise : Obligations.ErrorsArePrecise := by
  intro i s t hexec
  have h : CommandEffect s i t := exec_effect hexec
  exact ⟨fun e => h.eq_raised_of_err, h.anyErr_eq_of_success⟩

/-- Settles O46: each cause of `RaiseCause` is one the table lists (`exec_raiseCause`), and it has none
for `IllegalCommand` (`runCommand_err_illegalCommand_iff`). -/
theorem errorsHaveTheListedCauses : Obligations.ErrorsHaveTheListedCauses := by
  refine ⟨fun i s t e hexec herr => ?_, fun s t x es hhost hstep =>
    runCommand_err_illegalCommand_iff ((step_write (r := .cmd) hhost).symm.trans hstep)⟩
  have hcause : RaiseCause s i e := exec_raiseCause hexec herr
  cases hcause with
  | badSize hi hbad =>
    rw [s.sizeArg_eq, sizeOK_eq_false_iff] at hbad
    exact ⟨hi, hbad⟩
  | badWindow hi hbad =>
    rw [s.windowArg_eq, sizeOK_eq_false_iff] at hbad
    exact ⟨hi, hbad⟩
  | mismatch hi ha hb hsize => exact ⟨_, _, _, _, _, hi, ha, hb, hsize⟩
  | byteIndex hbad =>
    rw [s.indexArg_eq] at hbad
    exact .inl ⟨rfl, by omega⟩
  | wordIndex ha hbad =>
    rw [s.indexArg_eq, Vec.size_div] at hbad
    exact .inr ⟨_, _, rfl, ha, by omega⟩
  | consumed hi hb => exact ⟨hi, hb⟩
  | unwritten hi hr => exact ⟨_, hr, hi⟩
  | idle hi hb => exact ⟨hi, hb⟩
  | bitValue d hbad => exact .inl ⟨⟨d, rfl⟩, not_le.mp hbad⟩
  | byteValue hbad => exact .inr ⟨rfl, not_le.mp hbad⟩
  | bigSize hi hok hbig =>
    rw [s.sizeArg_eq] at hok hbig
    exact .inl ⟨hi, bounds_of_big hok hbig⟩
  | bigWindow hi hok hbig =>
    rw [s.windowArg_eq] at hok hbig
    exact .inr ⟨hi, bounds_of_big hok hbig⟩

/-- Settles O21: STATUS field by field, and the codes are those of the table. -/
theorem statusFieldsHoldTheCodes : Obligations.StatusFieldsHoldTheCodes := by
  intro s
  simp only [State.readReg, extractLsb'_statusWord_err, extractLsb'_statusWord_bstate]
  refine ⟨fun e n hen he => ?_, getLsbD_statusWord_anyErr s, extractLsb'_statusWord_middle s,
    fun b n hbn hb => ?_, extractLsb'_statusWord_high s⟩
  · subst he
    refine (?_ : ∀ p ∈ _, (errCode p.1).toNat = p.2) _ hen
    decide
  · subst hb
    refine (?_ : ∀ p ∈ _, (BState.code p.1).toNat = p.2) _ hbn
    decide

end

section
/-! Reset, idleness, and runs without a reset (spec/70_reset_and_hazards.md R111, R114, R122): outside a
reset each step keeps `ANYERR` set and a valid vector register valid. -/

namespace Sys2Proof.Machine

variable {s t : State}

/-! ## What a step without a reset keeps -/

/-- R22, R99: a raise sets `ANYERR`, and a success keeps it. -/
theorem CommandEffect.keeps_anyErr {i : Instr} (h : CommandEffect s i t) (hs : s.anyErr = true) :
    t.anyErr = true := by
  cases h with
  | raises => rfl
  | idles | writesResult | writesVreg | opensBuilder | setsByte | consumesBuilder => exact hs

theorem serve_keeps_anyErr {e : HostEvent} (he : e ≠ .reset) (h : serve e s = .next t)
    (hs : s.anyErr = true) : t.anyErr = true := by
  obtain ⟨hreset, -⟩ | ⟨_, _, r, -, -, rfl⟩ | ⟨_, _, x, -, hw⟩ := serve_cases h
  · exact absurd hreset he
  · exact hs
  · obtain ⟨-, rfl⟩ | ⟨-, rfl⟩ | ⟨-, ⟨i, -, hi⟩ | ⟨err, -, rfl⟩⟩ := hw
    · exact hs
    · exact hs
    · exact (exec_effect hi).keeps_anyErr hs
    · rfl

theorem step_keeps_anyErr (hr : HostEvent.reset ∉ s.host) (h : step s = .next t)
    (hs : s.anyErr = true) : t.anyErr = true := by
  obtain ⟨-, rfl⟩ | ⟨e, es, hcons, he⟩ := step_cases h
  · exact hs
  · have hne : e ≠ .reset := fun heq => hr (by simp [hcons, heq])
    exact serve_keeps_anyErr hne he hs

/-- R18: a vector register that changes outside a reset is a destination, which becomes valid. -/
theorem step_keeps_valid (hr : HostEvent.reset ∉ s.host) (h : step s = .next t) (r : VReg)
    (hs : ∃ v, s.vreg r = some v) : ∃ w, t.vreg r = some w := by
  by_cases hsame : t.vreg r = s.vreg r
  · rwa [hsame]
  · obtain ⟨hhead, -⟩ | ⟨_, _, _, _, -, -, -, -, hw⟩ :=
      vectorRegistersChangeOnlyAsListed s t r h hsame
    · exact absurd (List.mem_of_head? hhead) hr
    · exact hw

/-! ## Runs without a reset -/

/-- What every step from a state without a pending reset keeps, every run from one keeps: a step puts no
event into the queue. -/
theorem run_keeps_without_reset {P : State → Prop}
    (hstep : ∀ s t, HostEvent.reset ∉ s.host → P s → step s = .next t → P t) {k : Nat}
    (hr : HostEvent.reset ∉ s.host) (hs : P s) (h : Host.Core.run core k s = .next t) : P t := by
  have hstep' (u v : State) : HostEvent.reset ∉ u.host ∧ P u → step u = .next v →
      HostEvent.reset ∉ v.host ∧ P v := by
    rintro ⟨hhost, hu⟩ huv
    refine ⟨?_, hstep u v hhost hu huv⟩
    rw [step_host huv]
    exact fun hmem => hhost (List.mem_of_mem_tail hmem)
  exact (run_keeps hstep' k s t ⟨hr, hs⟩ h).2

/-! ## The reset state -/

theorem statusWord_resetWith (c : Config) : (State.resetWith c).statusWord = 0 := by
  rw [State.statusWord, State.resetWith_builder, State.resetWith_anyErr, State.resetWith_err]
  decide

/-- R111, R112: the reset event gives the reset state of the same parameters. -/
theorem step_reset {es : List HostEvent} (h : s.host = .reset :: es) :
    step s = .next { State.resetWith s.config with host := es } := step_cons h

end Sys2Proof.Machine

open Sys2Proof.Machine

/-- Settles O50: `ANYERR` and valid registers are kept by each step without a reset (`step_keeps_anyErr`,
`step_keeps_valid`), so by each run (`run_keeps_without_reset`); a reset gives the reset state. -/
theorem onlyResetClearsAnyErrAndRegisters : Obligations.OnlyResetClearsAnyErrAndRegisters := by
  refine ⟨fun k s t hr hrun => ⟨fun hs => ?_, fun r v hv => ?_⟩, fun s es hreset => ?_⟩
  · exact run_keeps_without_reset (P := fun u => u.anyErr = true)
      (fun _ _ hu hs h => step_keeps_anyErr hu h hs) hr hs hrun
  · exact run_keeps_without_reset (P := fun u => ∃ w, u.vreg r = some w)
      (fun _ _ hu hs h => step_keeps_valid hu h r hs) hr ⟨v, hv⟩ hrun
  · exact ⟨_, step_reset hreset, rfl, State.vreg_resetWith s.config⟩

/-- Settles O45: a command is checks, then one update (`exec_completes`). -/
theorem everyCommandCompletes : Obligations.EveryCommandCompletes := exec_completes

/-- Settles O1: both ways give the reset state of some parameters, with some events pending, and no
register of the window shows the pending events. -/
theorem resetLeavesTheResetValues : Obligations.ResetLeavesTheResetValues := by
  intro t ht
  obtain ⟨c, es, rfl⟩ : ∃ c es, t = { State.resetWith c with host := es } := by
    obtain ⟨s, es, hhost, h⟩ | ⟨c, rfl⟩ := ht
    · cases (step_reset hhost).symm.trans h
      exact ⟨s.config, es, rfl⟩
    · exact ⟨c, [], rfl⟩
  exact ⟨State.vreg_resetWith c, rfl, rfl, rfl, rfl, rfl, rfl, rfl, rfl, statusWord_resetWith c, rfl,
    vrvalidWord_resetWith c, rfl⟩

/-- Settles O4: with no event pending the block is idle (`step_nil`). -/
theorem noHostEventLeavesTheStateAsItIs : Obligations.NoHostEventLeavesTheStateAsItIs :=
  fun _ => step_nil

/-- Settles O43: the reset state of legal parameters (`State.inv_resetWith`), and those of `State.reset`
are legal. -/
theorem resetMeetsTheInvariant : Obligations.ResetMeetsTheInvariant :=
  ⟨fun _ => State.inv_resetWith, State.inv_resetWith (by decide)⟩

end
